-- ==== Sys2Proof/Word.lean ====
section
/-! DEFINITION. The two word types of the engine (spec/00_scope.md R7, R11; spec/30_encoding.md R77). -/

namespace Sys2Proof

/-- A table entry, index counter, key byte, data byte or keystream byte: `W = 8` (R7). All of them are
unsigned and `+` on them wraps modulo 256 (R12). -/
abbrev Byte := BitVec 8

/-- A command word: 16 bits, bit 0 least significant (R77, R11). -/
abbrev Word := BitVec 16

end Sys2Proof
end

