-- ==== Sys2Proof/Config.lean ====
section
/-! DEFINITION. What an implementation fixes, and the free values (spec/93_implementation_defined.md U1, U3, U7).

`DEBUG_READ` (R9) is a field of State, so that both builds are modelled at once (log 4). `TABLE_IMPL`
(R8) and `PLATFORM_MAP` (R56) have no architectural effect, and the latencies (R10) are the pace that
each clock edge of the input list carries (log 3): none of these is a constant here. -/

namespace Sys2Proof

/-- FREE VALUE. The contents of entry `n` of the table `S` that nothing has written yet: "A model may
give them any value (a draw)" (10_state.md R36, 93 U1). DESIGN CHOICE, safe (log 1). -/
opaque Config.drawS : Nat → Byte

/-- FREE VALUE. The contents of entry `n` of the key buffer `K` that nothing has written yet
(10_state.md R36, 93 U3). DESIGN CHOICE, safe (log 1). -/
opaque Config.drawK : Nat → Byte

/-- FREE VALUE. What KFULL and KOVF show on the `status` port while a command executes, `n` edges before the
end of the input list: "the other fields may show intermediate values" (10_state.md R30, 93 U7). DESIGN
CHOICE, safe (log 6). -/
opaque Config.drawStatus : Nat → BitVec 2

end Sys2Proof
end

