-- ==== Sys2Proof/Syntax.lean ====
section
/-! DEFINITION. The commands, one constructor per row of spec/opcode_table.json (spec/30_encoding.md R81).

A command that ignores `imm8` (R78) carries no operand: every value of the field "gives the same effect
and the same response", so the field is not part of the command. -/

namespace Sys2Proof

inductive Instr where
  /-- `NOP`: no operation (R123). -/
  | nop
  /-- `KCLR`: empty the key buffer (R100). -/
  | kclr
  /-- `KPUSH b`: append one key byte (R101). -/
  | kpush (b : Byte)
  /-- `INIT`: run the key schedule from the key buffer (R103). -/
  | init
  /-- `XFORM d`: one PRGA step, data XOR keystream byte (R122). -/
  | xform (d : Byte)
  /-- `RDSTAT`: read STATUS (R140). -/
  | rdstat
  /-- `RDKLEN`: read `KLEN[7:0]` (R141). -/
  | rdklen
  /-- `RDI`: read `I` (R142). -/
  | rdi
  /-- `RDJ`: read `J` (R143). -/
  | rdj
  /-- `RDS n`: read `S[n]` (R144). -/
  | rds (n : Byte)
  deriving DecidableEq, Repr

end Sys2Proof
end

