-- ==== Sys2Proof/WellFormed.lean ====
section
/-! DEFINITION. Which commands a build has (spec/00_scope.md R9, spec/30_encoding.md R82).

Every operand is one byte by its type (R78), so the one thing to check is that the build has the
command: RDI, RDJ and RDS exist only when `DEBUG_READ = 1`. -/

namespace Sys2Proof

/-- The three debug read-back commands (R9). -/
def Instr.isDebugRead : Instr → Bool
  | .nop | .kclr | .kpush _ | .init | .xform _ | .rdstat | .rdklen => false
  | .rdi | .rdj | .rds _ => true

/-- `i` is a command of a build with this `DEBUG_READ` (R9, R82). -/
def Instr.wellFormed (debugRead : Bool) (i : Instr) : Bool :=
  debugRead || !i.isDebugRead

end Sys2Proof
end

