-- ==== Sys2Proof/Decode.lean ====
section
/-! DEFINITION. The decoder and the encoder of the one command format C
(spec/30_encoding.md R77, R78, R81 to R84). -/

namespace Sys2Proof

/-- The opcode field `cmd_word[15:8]` (R77). -/
def Word.op (w : Word) : Byte := w.extractLsb' 8 8

/-- The operand field `cmd_word[7:0]` (R77, R78). -/
def Word.imm8 (w : Word) : Byte := w.extractLsb' 0 8

/-- What a command word decodes to: "exactly one of the ten commands, or … reserved" (R83). -/
inductive Decoded where
  /-- One of the ten commands. -/
  | command (i : Instr)
  /-- A reserved opcode (R82): rejected under its own name, with the opcode. -/
  | reserved (op : Byte)
  deriving DecidableEq, Repr

/-- The total decoder, as R83 writes it out. -/
def decode (debugRead : Bool) (w : Word) : Decoded :=
  match (Word.op w).toNat with
  | 0x00 => .command .nop
  | 0x01 => .command .kclr
  | 0x02 => .command (.kpush (Word.imm8 w))
  | 0x03 => .command .init
  | 0x04 => .command (.xform (Word.imm8 w))
  | 0x10 => .command .rdstat
  | 0x11 => .command .rdklen
  | 0x12 => if debugRead then .command .rdi else .reserved (Word.op w)
  | 0x13 => if debugRead then .command .rdj else .reserved (Word.op w)
  | 0x14 => if debugRead then .command (.rds (Word.imm8 w)) else .reserved (Word.op w)
  | _ => .reserved (Word.op w)

/-- The opcode of a command (R81). -/
def Instr.opcode : Instr → Byte
  | .nop => 0x00#8
  | .kclr => 0x01#8
  | .kpush _ => 0x02#8
  | .init => 0x03#8
  | .xform _ => 0x04#8
  | .rdstat => 0x10#8
  | .rdklen => 0x11#8
  | .rdi => 0x12#8
  | .rdj => 0x13#8
  | .rds _ => 0x14#8

/-- The operand a command has, if it has one (R78, R81). -/
def Instr.operand : Instr → Option Byte
  | .kpush b => some b
  | .xform d => some d
  | .rds n => some n
  | .nop | .kclr | .init | .rdstat | .rdklen | .rdi | .rdj => none

/-- `{op, imm8}` (R77, R85); "the assembler emits `imm8 = 0x00` for commands without an operand"
(R85), which is the canonical word of each command's own rule. -/
def encode (i : Instr) : Word := i.opcode ++ i.operand.getD 0x00#8

/-- The command of a word, or none where it is reserved. -/
def Decoded.instr? : Decoded → Option Instr
  | .command i => some i
  | .reserved _ => none

/-- The host's numbering of spec/opcode_table.json: bit 0 is the least significant bit of the one
16-bit word, which is the number `cmd_word` itself (R52, R77). The table lists the debug commands
as present, so this reads with `DEBUG_READ = 1`, the default (R9; log 4). -/
def decodeTableWord (nbits w : Nat) : Option Instr :=
  (decode true (BitVec.ofNat 16 (w % 2 ^ nbits))).instr?

end Sys2Proof
end

