-- ==== Sys2Proof/Machine/State.lean ====
section
/-! DEFINITION. The state of one engine, as plain data (spec/10_state.md; spec/30_encoding.md §1, §2). -/

namespace Sys2Proof.Machine

open Sys2Proof

/-- One of the two 256-byte arrays (20_memory.md R50): the entries that have been written, as
(index, byte) cells with the index strictly rising. An index that is not listed holds what the
array held at power-up, which the spec leaves unspecified (log 1). -/
abbrev Memory := List Host.Cell

/-- The four response codes (30_encoding.md R80). -/
inductive RspCode where
  | ok
  | invalidKey
  | notInit
  | illegalOp
  deriving DecidableEq, Repr

/-- The response register's contents while `rsp_valid = 1` (30_encoding.md R74, R79). -/
structure Response where
  data : Byte
  code : RspCode
  deriving DecidableEq, Repr

/-- The KSA's internal counters (10_state.md R31): they exist while a pass runs, and only then. -/
structure KsaRegs where
  /-- The loop counter: the iteration that comes next. -/
  ki : Byte
  /-- The running index `j` of the pass. -/
  kj : Byte
  /-- The key index (40_key_schedule.md R106). -/
  kidx : Byte
  deriving DecidableEq, Repr

/-- The sequencing phase (10_state.md R31), with what each phase holds. -/
inductive Phase where
  /-- A command can be accepted. -/
  | idle
  /-- A command is executing; `w` is the accepted word (30_encoding.md R72). -/
  | exec (w : Word)
  /-- An INIT's pass is running (40_key_schedule.md R109). -/
  | ksa (r : KsaRegs)
  /-- A response is waiting for `rsp_ready`: `rsp_valid = 1` exactly here (30_encoding.md R73, R74). -/
  | resp (r : Response)
  deriving DecidableEq, Repr

/-- How much of the command in flight is done at one clock edge. The spec leaves latency and
schedule to the implementation (00_scope.md R10; 70_reset_and_hazards.md R199; 93 U14, U19), so each
edge of the input list carries it: DESIGN CHOICE, safe (log 3). -/
inductive Pace where
  /-- Nothing visible happens to the command at this edge. -/
  | wait
  /-- One unit of work: an INIT begins its pass or does one iteration of it; any other command completes. -/
  | work
  /-- Whatever is left of the command is done by this edge. -/
  | finish
  deriving DecidableEq, Repr

/-- One rising edge of `clk`: the input ports as sampled there (30_encoding.md R70, R71), and the pace. -/
structure ClockEdge where
  rst : Bool
  cmdValid : Bool
  cmdWord : Word
  rspReady : Bool
  pace : Pace
  deriving DecidableEq, Repr

/-- The state of one engine (10_state.md, the tuple at its head, R31), the build parameter
`DEBUG_READ` (00_scope.md R9), and the model's own `held` and `inputs`. -/
structure State where
  /-- The permutation table (R20). -/
  S : Memory
  /-- `indexA` (R22). -/
  I : Byte
  /-- `indexB` (R23). -/
  J : Byte
  /-- The key buffer (R24). -/
  K : Memory
  /-- The key length, legal values 0..256 (R25). -/
  KLEN : BitVec 9
  /-- Sticky key overflow (R26). -/
  KOVF : Bool
  /-- The engine is initialised (R27). -/
  INITD : Bool
  /-- The sequencing phase, with the KSA's counters and the response register (R31). -/
  phase : Phase
  /-- The build parameter `DEBUG_READ` (R9): no step writes it (log 4). -/
  debugRead : Bool
  /-- MODEL'S OWN: the word the host has presented and the engine has not accepted (R72; log 5). -/
  held : Option Word
  /-- MODEL'S OWN: the clock edges to come, the next first (log 2). -/
  inputs : List ClockEdge
  deriving DecidableEq, Repr

/-- What stops the machine with a fault: NOTHING. "There is no trap, no vector, no handler … The engine
keeps running after every error" (60_exceptions.md R160), so this type has no constructor. DEDUCED, safe
(log 10). -/
inductive Fault where
  deriving DecidableEq, Repr

/-- Why a step can be refused. -/
inductive Refusal where
  /-- Raised by an arm of `exec` whose instruction has no meaning yet (none is left): safe. -/
  | notModelled (mnemonic : String)
  /-- Raised by `step` when the host changes `cmd_word` or drops `cmd_valid` before acceptance:
  "A model refuses such a host behaviour and does not model it" (30_encoding.md R76, 93 U9): safe (log 5). -/
  | handshakeBroken
  deriving DecidableEq, Repr

/-- The machine right after reset (10_state.md R36): `S` and `K` hold nothing that is known, the
registers are 0, the phase is IDLE, and the host drives nothing yet. -/
def State.reset : State where
  S := []
  I := 0#8
  J := 0#8
  K := []
  KLEN := 0#9
  KOVF := false
  INITD := false
  phase := .idle
  debugRead := true
  held := none
  inputs := []

end Sys2Proof.Machine
end

