-- ==== Sys2Proof/Machine/Ops.lean ====
section
/-! DEFINITION. The shared operations over memory, registers and the sequencer: reads and writes of the
two arrays, `swap`, `respond`, `raise` (spec/00_scope.md R13), the key-schedule pass
(spec/40_key_schedule.md R105, R106, R109), the PRGA step (spec/41_keystream.md R120) and reset
(spec/70_reset_and_hazards.md R191). -/

namespace Sys2Proof.Machine

open Sys2Proof

/-! ## The two arrays (10_state.md R20, R24; 20_memory.md R50, R53, R54) -/

/-- The byte written last at index `n`, if one was written. -/
def Memory.peek : Memory → Nat → Option Byte
  | [], _ => none
  | (a, v) :: m, n => if n = a then some v else Memory.peek m n

/-- Write `v` at index `n`, keeping the cells sorted by index. -/
def Memory.poke : Memory → Nat → Byte → Memory
  | [], n, v => [(n, v)]
  | (a, w) :: m, n, v =>
    if n < a then (n, v) :: (a, w) :: m
    else if n = a then (n, v) :: m
    else (a, w) :: Memory.poke m n v

/-- The cells' indices rise strictly from `lo` on and stay below 256. -/
def Memory.risesFrom : Nat → Memory → Bool
  | _, [] => true
  | lo, (a, _) :: m => decide (lo ≤ a) && decide (a < 256) && Memory.risesFrom (a + 1) m

/-- THE CANONICAL FORM of an array: indices strictly rising, each in 0..255 (20_memory.md R53). An
unlisted index has no known value (log 1), so no listed value can repeat it. -/
def Memory.wf (m : Memory) : Bool := Memory.risesFrom 0 m

/-- `S[n]` (00_scope.md R13): an entry that nothing has written holds the free value of log 1. -/
def tableAt (m : Memory) (n : Byte) : Byte :=
  (Memory.peek m n.toNat).getD (Config.drawS n.toNat)

/-- `K[n]` (00_scope.md R13): an entry that nothing has written holds the free value of log 1. -/
def keyAt (m : Memory) (n : Byte) : Byte :=
  (Memory.peek m n.toNat).getD (Config.drawK n.toNat)

/-- `S[n] <- v` or `K[n] <- v` (00_scope.md R13). -/
def setAt (m : Memory) (n v : Byte) : Memory := Memory.poke m n.toNat v

/-- `swap(S[a], S[b])`: `tmp <- S[a]; S[a] <- S[b]; S[b] <- tmp` (00_scope.md R13). -/
def swapTable (m : Memory) (a b : Byte) : Memory :=
  let tmp := tableAt m a
  setAt (setAt m a (tableAt m b)) b tmp

/-! ## Completing a command (00_scope.md R13; 30_encoding.md R74, R79, R80) -/

/-- `respond(d, c)`: the command completes, and the response waits in the response register. -/
def State.respond (s : State) (d : Byte) (c : RspCode) : State :=
  { s with phase := .resp ⟨d, c⟩ }

/-- `raise E`, the ONE way an error is taken: "the command completes with `respond(0x00, code(E))` and
leaves all architectural state unchanged" (00_scope.md R13; 60_exceptions.md R160, R166). There is no
trap entry, so there is no trap return to stand beside it (R169): after the host takes the response
(`State.takeResponse`) "the engine … accepts the next command normally" (R160). -/
def State.raiseError (s : State) (e : RspCode) : State := s.respond 0x00#8 e

/-- The response is taken: `rsp_valid` returns to 0 and the engine to IDLE (30_encoding.md R73, R74). -/
def State.takeResponse (s : State) : State := { s with phase := .idle }

/-! ## The PRGA step (41_keystream.md R120) -/

/-- What one PRGA step leaves: the table, the two counters and the keystream byte. -/
structure PrgaStep where
  S : Memory
  I : Byte
  J : Byte
  ks : Byte
  deriving DecidableEq, Repr

/-- Steps 1 to 4 of R120, in its order: each read sees every write before it. -/
def prga (S : Memory) (I J : Byte) : PrgaStep :=
  let I' := I + 1#8
  let J' := J + tableAt S I'
  let S' := swapTable S I' J'
  let t := tableAt S' I' + tableAt S' J'
  { S := S', I := I', J := J', ks := tableAt S' t }

/-! ## The key-scheduling pass (40_key_schedule.md R103, R105, R106, R109) -/

/-- Step 1 of R105: `table[n] = n` for n = 0..255. Every one of the 256 entries is written, so nothing
of the old contents is left. -/
def identityTable : Memory := (List.range 256).map fun n => (n, BitVec.ofNat 8 n)

/-- The new `kj` of an iteration: `(kj + S[ki] + key byte) mod 256` (R105 step 2). -/
def ksaIndex (S : Memory) (ki kj keyByte : Byte) : Byte := kj + tableAt S ki + keyByte

/-- The table and `kj` after the iterations `ki = 0 .. n-1` of R105 step 2, with the key byte
`K[ki mod KLEN]`. -/
def ksaRounds (K : Memory) (klen : Nat) : Nat → Memory × Byte
  | 0 => (identityTable, 0x00#8)
  | n + 1 =>
    match ksaRounds K klen n with
    | (S, kj) =>
      let ki := BitVec.ofNat 8 n
      let kj' := ksaIndex S ki kj (keyAt K (BitVec.ofNat 8 (n % klen)))
      (swapTable S ki kj', kj')

/-- "The swap engine … runs 256 iterations" (R105). Irreducible, so that no proof unfolds 256
iterations by accident; `passLength_eq` of Laws/Ops.lean says what it is. -/
@[irreducible] def passLength : Nat := 256

/-- The table after the whole pass (R105). -/
def ksaTable (K : Memory) (klen : Nat) : Memory := (ksaRounds K klen passLength).1

/-- The pass begins: `INITD <- 0`, BUSY is 1 (the phase KSA), the identity fill, `kj <- 0` (R103, R109). -/
def State.beginPass (s : State) : State :=
  { s with INITD := false, S := identityTable, phase := .ksa ⟨0x00#8, 0x00#8, 0x00#8⟩ }

/-- The pass ends: `I <- 0, J <- 0, INITD <- 1`, BUSY is 0 and the response is valid (R103, R109). -/
def State.endPass (s : State) : State :=
  State.respond { s with I := 0x00#8, J := 0x00#8, INITD := true } 0x00#8 .ok

/-- The key index of the next iteration: "`kidx + 1` or, when `kidx + 1 = KLEN`, 0"; the comparison
is of 9 bits (R106). -/
def nextKidx (KLEN : BitVec 9) (kidx : Byte) : Byte :=
  if kidx.setWidth 9 + 1#9 = KLEN then 0x00#8 else kidx + 1#8

/-- One iteration of a pass that is running; the iteration `ki = 255` ends the pass (R105, R109). -/
def State.passIteration (s : State) (r : KsaRegs) : State :=
  let kj' := ksaIndex s.S r.ki r.kj (keyAt s.K r.kidx)
  let s' := { s with S := swapTable s.S r.ki kj' }
  if r.ki = 0xFF#8 then s'.endPass
  else { s' with phase := .ksa ⟨r.ki + 1#8, kj', nextKidx s.KLEN r.kidx⟩ }

/-- At most `n` iterations of the pass that is running; nothing where no pass is running. -/
def State.passIterations : Nat → State → State
  | 0, s => s
  | n + 1, s =>
    match s.phase with
    | .ksa r => State.passIterations n (s.passIteration r)
    | .idle | .exec _ | .resp _ => s

/-! ## Reset (70_reset_and_hazards.md R190, R191) -/

/-- A reset edge: the registers take the values of 10_state.md R36, a command in flight and a waiting
response are dropped, and "`S` and `K` are not written by reset" (R191; log 6). -/
def State.resetEdge (s : State) : State :=
  { s with I := 0x00#8, J := 0x00#8, KLEN := 0#9, KOVF := false, INITD := false, phase := .idle }

end Sys2Proof.Machine
end

