-- ==== Sys2Proof/Machine/Operands.lean ====
section
/-! DEFINITION. The operand forms of the commands (spec/30_encoding.md R78; spec/20_memory.md R50, R53).

A command's own operand is a key byte (KPUSH), a data byte (XFORM) or a table index (RDS): a byte used
"without extension, scaling or shift" (R78). The rest is what a command addresses in the arrays. -/

namespace Sys2Proof.Machine

open Sys2Proof

/-- The index KPUSH stores to: `KLEN[7:0]` (40_key_schedule.md R101). -/
def State.keySlot (s : State) : Byte := s.KLEN.extractLsb' 0 8

/-- The byte RDS returns: `S[n]` (42_readback.md R144). -/
def State.tableEntry (s : State) (n : Byte) : Byte := tableAt s.S n

/-- The two table indices an XFORM swaps: `I` and `J` after steps 1 and 2 of 41_keystream.md R120. -/
def State.swapIndexA (s : State) : Byte := (prga s.S s.I s.J).I

/-- See `State.swapIndexA`. -/
def State.swapIndexB (s : State) : Byte := (prga s.S s.I s.J).J

/-- The XOR datapath: `out <- imm8 XOR ks` (41_keystream.md R121). -/
def xorDatapath (d ks : Byte) : Byte := d ^^^ ks

end Sys2Proof.Machine
end

