-- ==== Sys2Proof/Machine/Flags.lean ====
section
/-! DEFINITION. The status view and the checks on flags (spec/10_state.md R25 to R29;
spec/40_key_schedule.md R102, R104; spec/60_exceptions.md R161). The engine has no arithmetic flags (R34). -/

namespace Sys2Proof.Machine

open Sys2Proof

/-- BUSY: 1 "exactly while an INIT's KSA pass is running" (R28). -/
def State.busy (s : State) : Bool :=
  match s.phase with
  | .ksa _ => true
  | .idle | .exec _ | .resp _ => false

/-- KFULL: `KLEN[8]` (R29). -/
def State.kfull (s : State) : Bool := s.KLEN.getLsbD 8

/-- STATUS: `{0000, KLEN[8], KOVF, BUSY, INITD}` (R29; 42_readback.md R140). -/
def State.statusReg (s : State) : Byte :=
  0#4 ++ BitVec.ofBool s.kfull ++ BitVec.ofBool s.KOVF ++ BitVec.ofBool s.busy ++ BitVec.ofBool s.INITD

/-- The low byte of the key length, `KLEN[7:0]` (42_readback.md R141). -/
def State.klenLow (s : State) : Byte := s.KLEN.extractLsb' 0 8

/-- INIT's check: the key is empty or over-long (40_key_schedule.md R104). -/
def State.keyInvalid (s : State) : Bool := decide (s.KLEN = 0#9) || s.KOVF

/-- The code of a response code, two bits (30_encoding.md R80). -/
def RspCode.bits : RspCode → BitVec 2
  | .ok => 0#2
  | .invalidKey => 1#2
  | .notInit => 2#2
  | .illegalOp => 3#2

end Sys2Proof.Machine
end

