-- ==== Sys2Proof/Machine/Ports.lean ====
section
/-! DEFINITION. The output ports (spec/30_encoding.md R70), as functions of the state and of the level on
`rst` (spec/70_reset_and_hazards.md R190). -/

namespace Sys2Proof.Machine

open Sys2Proof

/-- `cmd_ready`: 1 exactly in the phase IDLE (30_encoding.md R73), and 0 while `rst = 1` (R190). -/
def State.cmdReady (s : State) (rst : Bool) : Bool :=
  !rst && match s.phase with
    | .idle => true
    | .exec _ | .ksa _ | .resp _ => false

/-- `rsp_data` and `rsp_code` while `rsp_valid = 1`; none while `rsp_valid = 0`, when "the values … are
unspecified and the host must ignore them" (30_encoding.md R74; log 9). -/
def State.rspPort (s : State) (rst : Bool) : Option Response :=
  if rst then none
  else match s.phase with
    | .resp r => some r
    | .idle | .exec _ | .ksa _ => none

/-- `rsp_valid` (30_encoding.md R74; 70_reset_and_hazards.md R190). -/
def State.rspValid (s : State) (rst : Bool) : Bool := (s.rspPort rst).isSome

/-- `status[7:0]`: STATUS "as it stands in the current cycle" (10_state.md R30). While a command executes
BUSY and INITD do, and KFULL and KOVF, which "may show intermediate values", hold the free value of log 6. -/
def State.statusPort (s : State) : Byte :=
  match s.phase with
  | .idle | .resp _ => s.statusReg
  | .exec _ | .ksa _ =>
    0#4 ++ Config.drawStatus s.inputs.length ++ BitVec.ofBool s.busy ++ BitVec.ofBool s.INITD

end Sys2Proof.Machine
end

