-- ==== Sys2Proof/Machine/KeyLoad.lean ====
section
/-! DEFINITION. Key loading and key scheduling: KCLR, KPUSH, INIT (spec/40_key_schedule.md). -/

namespace Sys2Proof.Machine

open Sys2Proof

/-- `KCLR` (R100): the old key bytes stay in `K`. -/
def execKclr (s : State) : Host.Outcome State Fault Refusal :=
  .next (State.respond { s with KLEN := 0#9, KOVF := false } 0x00#8 .ok)

/-- `KPUSH b` (R101): append a key byte, or drop it and set `KOVF` when the buffer is full. -/
def execKpush (b : Byte) (s : State) : Host.Outcome State Fault Refusal :=
  if s.KLEN < 256#9 then
    .next (State.respond { s with K := setAt s.K s.keySlot b, KLEN := s.KLEN + 1#9 } 0x00#8 .ok)
  else
    .next (State.respond { s with KOVF := true } 0x00#8 .ok)

/-- `INIT` (R103): key validation (R104), then the pass over `K[0..KLEN-1]` (R105), `I = J = 0`,
`INITD = 1`; the key buffer is kept (R110). -/
def execInit (s : State) : Host.Outcome State Fault Refusal :=
  if s.keyInvalid then .next (s.raiseError .invalidKey)
  else .next (State.endPass { s with S := ksaTable s.K s.KLEN.toNat })

end Sys2Proof.Machine
end

