-- ==== Sys2Proof/Machine/Keystream.lean ====
section
/-! DEFINITION. Keystream generation and transform: XFORM, NOP (spec/41_keystream.md). -/

namespace Sys2Proof.Machine

open Sys2Proof

/-- `XFORM d` (R122): one PRGA step (R120), and the data byte XOR the keystream byte (R121). -/
def execXform (d : Byte) (s : State) : Host.Outcome State Fault Refusal :=
  if s.INITD then
    let p := prga s.S s.I s.J
    .next (State.respond { s with S := p.S, I := p.I, J := p.J } (xorDatapath d p.ks) .ok)
  else .next (s.raiseError .notInit)

/-- `NOP` (R123). -/
def execNop (s : State) : Host.Outcome State Fault Refusal := .next (s.respond 0x00#8 .ok)

end Sys2Proof.Machine
end

