-- ==== Sys2Proof/Machine/ReadBack.lean ====
section
/-! DEFINITION. Status and debug read-back: RDSTAT, RDKLEN, RDI, RDJ, RDS (spec/42_readback.md). -/

namespace Sys2Proof.Machine

open Sys2Proof

/-- `RDSTAT` (R140). -/
def execRdstat (s : State) : Host.Outcome State Fault Refusal := .next (s.respond s.statusReg .ok)

/-- `RDKLEN` (R141): `KLEN = 256` reads 0x00. -/
def execRdklen (s : State) : Host.Outcome State Fault Refusal := .next (s.respond s.klenLow .ok)

/-- The checks of the three debug read-back commands, in the order of 60_exceptions.md R164, and the
byte `v` where both pass (R142 to R144). -/
def State.debugRespond (s : State) (v : Byte) : State :=
  if !s.debugRead then s.raiseError .illegalOp
  else if !s.INITD then s.raiseError .notInit
  else s.respond v .ok

/-- `RDI` (R142). -/
def execRdi (s : State) : Host.Outcome State Fault Refusal := .next (s.debugRespond s.I)

/-- `RDJ` (R143). -/
def execRdj (s : State) : Host.Outcome State Fault Refusal := .next (s.debugRespond s.J)

/-- `RDS n` (R144): every index is valid. -/
def execRds (n : Byte) (s : State) : Host.Outcome State Fault Refusal :=
  .next (s.debugRespond (s.tableEntry n))

end Sys2Proof.Machine
end

