-- ==== Sys2Proof/Machine/Dispatch.lean ====
section
/-! DEFINITION. Every command's meaning, one arm per constructor (spec/30_encoding.md R81). -/

namespace Sys2Proof.Machine

open Sys2Proof

def exec (i : Instr) (s : State) : Host.Outcome State Fault Refusal :=
  match i with
  | .nop => Sys2Proof.Machine.execNop s
  | .kclr => Sys2Proof.Machine.execKclr s
  | .kpush b => Sys2Proof.Machine.execKpush b s
  | .init => Sys2Proof.Machine.execInit s
  | .xform d => Sys2Proof.Machine.execXform d s
  | .rdstat => Sys2Proof.Machine.execRdstat s
  | .rdklen => Sys2Proof.Machine.execRdklen s
  | .rdi => Sys2Proof.Machine.execRdi s
  | .rdj => Sys2Proof.Machine.execRdj s
  | .rds n => Sys2Proof.Machine.execRds n s

end Sys2Proof.Machine
end

