-- ==== Sys2Proof/Machine/Sequencer.lean ====
section
/-! DEFINITION. What one rising edge of `clk` does (spec/30_encoding.md R72 to R76;
spec/40_key_schedule.md R109; spec/70_reset_and_hazards.md R190, R191): accept a command, advance the
one in flight, hold or give away the response, or reset. -/

namespace Sys2Proof.Machine

open Sys2Proof

/-- The command `w` in flight completes: "one atomic transition of the architectural state"
(00_scope.md R14). A reserved word completes with ILLEGAL_OP (60_exceptions.md R163). -/
def State.complete (w : Word) (s : State) : Host.Outcome State Fault Refusal :=
  match decode s.debugRead w with
  | .command i => exec i s
  | .reserved _ => .next (s.raiseError .illegalOp)

/-- `w` is an INIT that passes validation: the command that has a pass to run (40_key_schedule.md R104). -/
def State.startsPass (w : Word) (s : State) : Bool :=
  decide (decode s.debugRead w = .command .init) && !s.keyInvalid

/-- What an edge does to the command in flight, at the implementation's pace (log 3). -/
def State.advance (pace : Pace) (s : State) : Host.Outcome State Fault Refusal :=
  match s.phase, pace with
  | .exec w, .work => if s.startsPass w then .next s.beginPass else s.complete w
  | .exec w, .finish => s.complete w
  | .ksa r, .work => .next (s.passIteration r)
  | .ksa _, .finish => .next (s.passIterations passLength)
  | .exec _, .wait => .next s
  | .ksa _, .wait => .next s
  | .idle, _ => .next s
  | .resp _, _ => .next s

/-- The command word on the port at this edge, if the host presents one (30_encoding.md R70). -/
def ClockEdge.presented (e : ClockEdge) : Option Word :=
  if e.cmdValid then some e.cmdWord else none

/-- The host owes the word it has been presenting and does not present it (30_encoding.md R72, R76). -/
def State.handshakeBroken (s : State) (e : ClockEdge) : Bool :=
  match s.held with
  | none => false
  | some w => decide (e.presented ≠ some w)

/-- The command `w` is accepted (30_encoding.md R72, R73). -/
def State.accept (w : Word) (s : State) : State := { s with phase := .exec w, held := none }

/-- One rising edge with the inputs `e`. A broken handshake is refused at every edge, a reset edge included
(R76, which makes no exception for reset; log 5); a reset edge takes effect in every phase (R190, R191);
a command is accepted only in the phase IDLE (R73); a response is taken when `rsp_ready = 1` (R74). -/
def State.clockEdge (e : ClockEdge) (s : State) : Host.Outcome State Fault Refusal :=
  if s.handshakeBroken e then .refused .handshakeBroken
  else if e.rst then .next { s.resetEdge with held := e.presented }
  else match s.phase with
    | .idle => if e.cmdValid then (s.accept e.cmdWord).advance e.pace else .next s
    | .exec _ => State.advance e.pace { s with held := e.presented }
    | .ksa _ => State.advance e.pace { s with held := e.presented }
    | .resp _ =>
      if e.rspReady then .next (State.takeResponse { s with held := e.presented })
      else .next { s with held := e.presented }

/-- The edge at which a host presents `w` to an idle engine that completes it at once (R72; log 2, log 3). -/
def ClockEdge.command (w : Word) : ClockEdge :=
  { rst := false, cmdValid := true, cmdWord := w, rspReady := false, pace := .finish }

/-- An edge at which the host takes the response and presents no command (R74). -/
def ClockEdge.take : ClockEdge :=
  { rst := false, cmdValid := false, cmdWord := 0x0000#16, rspReady := true, pace := .wait }

/-- The state in which the next edge presents `w` to an idle engine (log 2). -/
def State.withCommand (s : State) (w : Word) : State :=
  { s with phase := .idle, held := none, inputs := ClockEdge.command w :: s.inputs }

end Sys2Proof.Machine
end

