-- ==== Sys2Proof/Machine/Step.lean ====
section
/-! DEFINITION. One step of the machine: the next rising edge of `clk` (spec/00_scope.md R14;
spec/30_encoding.md R71; log 2). -/

namespace Sys2Proof.Machine

open Sys2Proof

/-- The next edge of the input list. With no edge left the clock does not tick, and "the state is held
and nothing changes until the clock runs again" (60_exceptions.md R175; log 8). -/
def step (s : State) : Host.Outcome State Fault Refusal :=
  match s.inputs with
  | [] => .next s
  | e :: rest => State.clockEdge e { s with inputs := rest }

/-- `s` with the command word `w` (numbered as spec/opcode_table.json numbers it) on the command port at
the next edge, the engine idle: the very next step accepts and runs it (log 2). -/
def State.withFetchWord (s : State) (nbits w : Nat) : State :=
  s.withCommand (BitVec.ofNat 16 (w % 2 ^ nbits))

end Sys2Proof.Machine
end

