-- ==== Sys2Proof/Machine/Session.lean ====
section
/-! DEFINITION. The host's side: one transaction, a sequence of commands, and the source's buffer
operations as command sequences (spec/30_encoding.md R75, R86; spec/41_keystream.md R124). -/

namespace Sys2Proof.Machine

open Sys2Proof

/-- One command and its response, by two steps of the machine: the command is presented and completes,
then its response is taken (30_encoding.md R72, R74). None where the command is not accepted. -/
def transact (w : Word) (s : State) : Option (State × Response) :=
  match step { s with inputs := [ClockEdge.command w, ClockEdge.take] } with
  | .next s1 =>
    match s1.phase with
    | .resp r =>
      match step s1 with
      | .next s2 => some (s2, r)
      | .fault _ => none
      | .refused _ => none
    | .idle | .exec _ | .ksa _ => none
  | .fault _ => none
  | .refused _ => none

/-- A sequence of commands, each issued after the response of the one before it was taken: the state
they leave, and their responses in order (20_memory.md R58; 30_encoding.md R75). -/
def session : List Word → State → Option (State × List Response)
  | [], s => some (s, [])
  | w :: ws, s =>
    match transact w s with
    | none => none
    | some (s1, r) =>
      match session ws s1 with
      | none => none
      | some (s2, rs) => some (s2, r :: rs)

/-- `n` steps, one after the other, stopping where a step does not answer a next state. -/
def State.steps : Nat → State → Host.Outcome State Fault Refusal
  | 0, s => .next s
  | n + 1, s =>
    match step s with
    | .next s' => State.steps n s'
    | .fault f => .fault f
    | .refused r => .refused r

/-- `KS`: `XFORM 0x00` (30_encoding.md R86). -/
def pseudoKs : List Word := [encode (.xform 0x00#8)]

/-- `LDKEY b0, …`: `KCLR`, one KPUSH per byte, `INIT` (30_encoding.md R86). -/
def pseudoLdkey (key : List Byte) : List Word :=
  encode .kclr :: (key.map fun b => encode (.kpush b)) ++ [encode .init]

/-- `XBUF d0, …`: one XFORM per byte, nothing for no byte (30_encoding.md R86). -/
def pseudoXbuf (data : List Byte) : List Word := data.map fun d => encode (.xform d)

/-- `transform(buffer)`: the responses' data bytes, in order, are the new buffer (41_keystream.md R124).
`applyCopy` is the same sequence: what differs is where the host writes the responses. -/
def transformBuffer (data : List Byte) (s : State) : Option (State × List Byte) :=
  match session (pseudoXbuf data) s with
  | none => none
  | some (s', rs) => some (s', rs.map Response.data)

end Sys2Proof.Machine
end

