-- ==== Sys2Proof/Machine/Assembler.lean ====
section
/-! DEFINITION. The assembler syntax and the pseudo-commands (spec/30_encoding.md R85, R86). What R85 leaves
open of the text form is log 11. -/

namespace Sys2Proof.Machine

open Sys2Proof

/-- Why a line is refused by the assembler (R85: "an assembly error"). -/
inductive AsmError where
  /-- A string or a comma stands where it cannot, or a string is not closed. -/
  | malformed
  /-- The first word is no mnemonic, pseudo-command or directive. -/
  | unknownMnemonic
  /-- "an operand given to a command that takes none" (R85). -/
  | operandNotAllowed
  /-- A command that takes an operand has none, or more than one. -/
  | operandMissing
  /-- An operand is no number and no character literal. -/
  | badOperand
  /-- "an operand outside 0..255" (R85), or a `.word` outside 16 bits. -/
  | outOfRange
  deriving DecidableEq, Repr

/-- The pieces of a line. -/
inductive Token where
  | word (cs : List Char)
  | chr (c : Char)
  | str (cs : List Char)
  | comma
  deriving DecidableEq, Repr

/-- Where the reader of a line stands. -/
inductive LexMode where
  | between
  | inWord (acc : List Char)
  | inString (acc : List Char)
  deriving DecidableEq, Repr

/-- `'`, which encloses a character literal. -/
def apostrophe : Char := Char.ofNat 39

/-- The double quote, which encloses a string. -/
def doubleQuote : Char := Char.ofNat 34

/-- The blanks between the pieces of a line. -/
def isBlankChar (c : Char) : Bool := c = ' ' || c = Char.ofNat 9

/-- A line's pieces; "a comment starts with `;` and runs to the end of the line" (R85). -/
def lexLine : LexMode → List Char → Option (List Token)
  | .between, [] => some []
  | .inWord acc, [] => some [.word acc.reverse]
  | .inString _, [] => none
  | .inString acc, c :: cs =>
    if c = doubleQuote then (lexLine .between cs).map (.str acc.reverse :: ·)
    else lexLine (.inString (c :: acc)) cs
  | .inWord acc, c :: cs =>
    if c = ';' then some [.word acc.reverse]
    else if c = ',' then (lexLine .between cs).map fun ts => .word acc.reverse :: .comma :: ts
    else if isBlankChar c then (lexLine .between cs).map (.word acc.reverse :: ·)
    else lexLine (.inWord (c :: acc)) cs
  | .between, c :: cs =>
    if c = ';' then some []
    else if c = ',' then (lexLine .between cs).map (.comma :: ·)
    else if isBlankChar c then lexLine .between cs
    else if c = doubleQuote then lexLine (.inString []) cs
    else if c = apostrophe then
      match cs with
      | d :: q :: rest => if q = apostrophe then (lexLine .between rest).map (.chr d :: ·) else none
      | _ => none
    else lexLine (.inWord [c]) cs

/-- A digit of base `base`, in either case. -/
def digitValue (base : Nat) (c : Char) : Option Nat :=
  let n := c.toNat
  let v :=
    if 48 ≤ n ∧ n ≤ 57 then n - 48
    else if 97 ≤ n ∧ n ≤ 102 then n - 87
    else if 65 ≤ n ∧ n ≤ 70 then n - 55
    else base
  if v < base then some v else none

/-- The value of a run of digits, after the value `acc` of those read before. -/
def digitsValue (base : Nat) : Nat → List Char → Option Nat
  | acc, [] => some acc
  | acc, c :: cs =>
    match digitValue base c with
    | none => none
    | some v => digitsValue base (acc * base + v) cs

/-- "a hex number `0xNN`" (R85). -/
def hexNumber : List Char → Option Nat
  | '0' :: 'x' :: c :: cs => digitsValue 16 0 (c :: cs)
  | _ => none

/-- "a decimal number … , a hex number `0xNN`" (R85). -/
def numberValue : List Char → Option Nat
  | [] => none
  | c :: cs =>
    match hexNumber (c :: cs) with
    | some n => some n
    | none => digitsValue 10 0 (c :: cs)

/-- One operand: a number, or a character literal "that stands for its ASCII code" (R85). A character
that has no ASCII code (code 128 and above) stands for its code: DESIGN CHOICE (log 11). -/
def operandValue : Token → Except AsmError Nat
  | .word cs =>
    match numberValue cs with
    | some n => .ok n
    | none => .error .badOperand
  | .chr c => .ok c.toNat
  | .str _ => .error .malformed
  | .comma => .error .malformed

/-- One operand byte; "an operand outside 0..255" is an error (R85). -/
def operandByte (n : Nat) : Except AsmError Byte :=
  if n < 256 then .ok (BitVec.ofNat 8 n) else .error .outOfRange

/-- Operands separated by commas, each followed by what may follow it. -/
def operandList : List Token → Except AsmError (List Nat)
  | [] => .ok []
  | [t] => (operandValue t).map fun n => [n]
  | t :: .comma :: u :: ts => do
    let n ← operandValue t
    let ns ← operandList (u :: ts)
    return n :: ns
  | _ :: _ :: _ => .error .malformed

/-- The byte operands of LDKEY and XBUF: a list, or a string's ASCII bytes (R86; log 11). A character of
a string that has no ASCII code is taken as in `operandValue`: DESIGN CHOICE (log 11). -/
def byteOperands : List Token → Except AsmError (List Byte)
  | [.str cs] => cs.mapM fun c => operandByte c.toNat
  | ts => do
    let ns ← operandList ts
    ns.mapM operandByte

/-- A command that takes no operand (R85). -/
def assemblePlain (i : Instr) (ops : List Nat) : Except AsmError (List Word) :=
  match ops with
  | [] => .ok [encode i]
  | _ :: _ => .error .operandNotAllowed

/-- A command that takes one byte (R85). -/
def assembleByte (i : Byte → Instr) (ops : List Nat) : Except AsmError (List Word) :=
  match ops with
  | [n] => (operandByte n).map fun b => [encode (i b)]
  | [] => .error .operandMissing
  | _ :: _ :: _ => .error .operandMissing

/-- The mnemonic of a command, in lower case (R81, R85). -/
def mnemonicOf : Instr → List Char
  | .nop => ['n', 'o', 'p']
  | .kclr => ['k', 'c', 'l', 'r']
  | .kpush _ => ['k', 'p', 'u', 's', 'h']
  | .init => ['i', 'n', 'i', 't']
  | .xform _ => ['x', 'f', 'o', 'r', 'm']
  | .rdstat => ['r', 'd', 's', 't', 'a', 't']
  | .rdklen => ['r', 'd', 'k', 'l', 'e', 'n']
  | .rdi => ['r', 'd', 'i']
  | .rdj => ['r', 'd', 'j']
  | .rds _ => ['r', 'd', 's']

/-- A mnemonic with its operands; "mnemonics are case-insensitive" (R85), so it comes in lower case. -/
def assembleCommand (mnemonic : List Char) (ops : List Nat) : Except AsmError (List Word) :=
  if mnemonic = ['n', 'o', 'p'] then assemblePlain .nop ops
  else if mnemonic = ['k', 'c', 'l', 'r'] then assemblePlain .kclr ops
  else if mnemonic = ['k', 'p', 'u', 's', 'h'] then assembleByte .kpush ops
  else if mnemonic = ['i', 'n', 'i', 't'] then assemblePlain .init ops
  else if mnemonic = ['x', 'f', 'o', 'r', 'm'] then assembleByte .xform ops
  else if mnemonic = ['r', 'd', 's', 't', 'a', 't'] then assemblePlain .rdstat ops
  else if mnemonic = ['r', 'd', 'k', 'l', 'e', 'n'] then assemblePlain .rdklen ops
  else if mnemonic = ['r', 'd', 'i'] then assemblePlain .rdi ops
  else if mnemonic = ['r', 'd', 'j'] then assemblePlain .rdj ops
  else if mnemonic = ['r', 'd', 's'] then assembleByte .rds ops
  else if mnemonic = ['k', 's'] then
    match ops with
    | [] => .ok pseudoKs
    | _ :: _ => .error .operandNotAllowed
  else .error .unknownMnemonic

/-- The directive `.word 0xNNNN`: "emits the 16-bit word `0xNNNN` as it stands" (R85). -/
def assembleRaw : List Token → Except AsmError (List Word)
  | [.word cs] =>
    match hexNumber cs with
    | none => .error .badOperand
    | some n => if n < 65536 then .ok [BitVec.ofNat 16 n] else .error .outOfRange
  | _ => .error .malformed

/-- A letter in lower case. -/
def lowerChar (c : Char) : Char :=
  if 65 ≤ c.toNat ∧ c.toNat ≤ 90 then Char.ofNat (c.toNat + 32) else c

/-- A line's pieces to the words it emits. "mnemonics are case-insensitive" (R85); that the directive
`.word` and the pseudo-commands of R86 are read in either case too (`.WORD`, `ldkey`) is the model's
DESIGN CHOICE: R85 says it of mnemonics only (log 11). -/
def assembleTokens : List Token → Except AsmError (List Word)
  | [] => .ok []
  | .word cs :: ts =>
    let m := cs.map lowerChar
    if m = ['.', 'w', 'o', 'r', 'd'] then assembleRaw ts
    else if m = ['l', 'd', 'k', 'e', 'y'] then (byteOperands ts).map pseudoLdkey
    else if m = ['x', 'b', 'u', 'f'] then (byteOperands ts).map pseudoXbuf
    else do
      let ops ← operandList ts
      assembleCommand m ops
  | .chr _ :: _ => .error .malformed
  | .str _ :: _ => .error .malformed
  | .comma :: _ => .error .malformed

/-- "one command per line" (R85): the words a line emits. -/
def assembleLine (line : List Char) : Except AsmError (List Word) :=
  match lexLine .between line with
  | none => .error .malformed
  | some ts => assembleTokens ts

/-- The words of a program, line by line (R85); one line in error leaves no words: DESIGN CHOICE (log 11). -/
def assemble : List (List Char) → Except AsmError (List Word)
  | [] => .ok []
  | l :: ls => do
    let ws ← assembleLine l
    let rest ← assemble ls
    return ws ++ rest

end Sys2Proof.Machine
end

