-- ==== Sys2Proof/Safety.lean ====
section
/-! DEFINITION. What every state of a run satisfies, in the terms the claims use. -/

namespace Sys2Proof.Machine

open Sys2Proof

/-- The reserved opcodes of a build: "0x05 to 0x0F and 0x15 to 0xFF always, and 0x12 to 0x14 when
`DEBUG_READ = 0`" (60_exceptions.md R163). -/
abbrev reservedOp (debugRead : Bool) (op : Nat) : Prop :=
  (0x05 ≤ op ∧ op ≤ 0x0F) ∨ 0x15 ≤ op ∨ (debugRead = false ∧ 0x12 ≤ op ∧ op ≤ 0x14)

/-- The commands that read the running engine: "XFORM, RDI, RDJ or RDS" (60_exceptions.md R164). -/
abbrev needsInit (op : Nat) : Prop := op = 0x04 ∨ (0x12 ≤ op ∧ op ≤ 0x14)

/-- "`S` is a bijection on {0..255}: each value 0..255 occurs in exactly one entry" (10_state.md R21). -/
def tableIsPermutation (m : Memory) : Prop := Function.Bijective (tableAt m)

/-- Every index below `n` has been written. -/
def writtenBelow (m : Memory) (n : Nat) : Prop := ∀ k, k < n → (Memory.peek m k).isSome = true

/-- What holds while a KSA pass runs: the engine is not initialised and the key is valid
(40_key_schedule.md R104, R109), `kidx = ki mod KLEN` (R106), and the table and `kj` are those after the
iterations `0 .. ki-1` (R105). -/
structure PassInv (s : State) (r : KsaRegs) : Prop where
  notInitialised : s.INITD = false
  keyValid : s.keyInvalid = false
  keyIndex : r.kidx.toNat = r.ki.toNat % s.KLEN.toNat
  rounds : ksaRounds s.K s.KLEN.toNat r.ki.toNat = (s.S, r.kj)

/-- The invariant of the engine. -/
structure State.Inv (s : State) : Prop where
  /-- Both arrays are in canonical form. -/
  tableWf : Memory.wf s.S = true
  keyWf : Memory.wf s.K = true
  /-- `KLEN` "never exceeds 256" (10_state.md R25). -/
  klenLegal : s.KLEN ≤ 256#9
  /-- 40_key_schedule.md R102. -/
  overflowFull : s.KOVF = true → s.KLEN = 256#9
  /-- Every key byte below `KLEN` has been written (70_reset_and_hazards.md R195). -/
  keyWritten : writtenBelow s.K s.KLEN.toNat
  /-- An initialised engine's table is written whole (R195) and is a permutation (10_state.md R21). -/
  tableWritten : s.INITD = true → writtenBelow s.S 256
  tablePermutation : s.INITD = true → tableIsPermutation s.S
  /-- What holds while a pass runs. -/
  pass : ∀ r, s.phase = .ksa r → PassInv s r

/-- The engine can accept a command and the host owes none: where a transaction begins
(30_encoding.md R72, R73). -/
def State.ready (s : State) : Prop := s.phase = .idle ∧ s.held = none

/-- A command is in flight (30_encoding.md R73). -/
def State.inFlight (s : State) : Prop := (∃ w, s.phase = .exec w) ∨ ∃ r, s.phase = .ksa r

/-- Two states that differ at most in contents the spec leaves unspecified: key bytes at `KLEN` and
above, and the table where the engine is not initialised and no pass runs
(70_reset_and_hazards.md R195; 93 U1 to U4). -/
structure State.SameButUnspecified (s t : State) : Prop where
  I : s.I = t.I
  J : s.J = t.J
  KLEN : s.KLEN = t.KLEN
  KOVF : s.KOVF = t.KOVF
  INITD : s.INITD = t.INITD
  phase : s.phase = t.phase
  debugRead : s.debugRead = t.debugRead
  held : s.held = t.held
  inputs : s.inputs = t.inputs
  key : ∀ n : Byte, n.toNat < s.KLEN.toNat → keyAt s.K n = keyAt t.K n
  table : (s.INITD = true ∨ s.busy = true) → ∀ n : Byte, tableAt s.S n = tableAt t.S n

end Sys2Proof.Machine
end

