-- ==== Sys2Proof/Certificates/Slice0/Obligations.lean ====
section
/-! DEFINITION. What is claimed of the engine, for the provers. Each statement's docstring names the rule of
spec/ it formalises; OBLIGATIONS.json lists them. -/

open Sys2Proof Sys2Proof.Machine

/-! ## Encoding -/

/-- R81, the opcode map: `op` alone selects the command, `imm8` is the operand of KPUSH, XFORM and RDS,
and RDI, RDJ and RDS are there only when `DEBUG_READ = 1`. -/
def Obligations.OpcodeMap : Prop :=
  ∀ b : Byte,
    (∀ dbg : Bool,
      decode dbg (0x00#8 ++ b) = .command .nop ∧ decode dbg (0x01#8 ++ b) = .command .kclr ∧
      decode dbg (0x02#8 ++ b) = .command (.kpush b) ∧ decode dbg (0x03#8 ++ b) = .command .init ∧
      decode dbg (0x04#8 ++ b) = .command (.xform b) ∧ decode dbg (0x10#8 ++ b) = .command .rdstat ∧
      decode dbg (0x11#8 ++ b) = .command .rdklen) ∧
    decode true (0x12#8 ++ b) = .command .rdi ∧ decode true (0x13#8 ++ b) = .command .rdj ∧
    decode true (0x14#8 ++ b) = .command (.rds b) ∧
    decode false (0x12#8 ++ b) = .reserved 0x12#8 ∧ decode false (0x13#8 ++ b) = .reserved 0x13#8 ∧
    decode false (0x14#8 ++ b) = .reserved 0x14#8

/-- Words written out bit by bit from R81's patterns, one per family, decode to their commands. -/
def Obligations.SpecWordsDecode : Prop :=
  decode true 0b0000000000000000#16 = .command .nop ∧
  decode true 0b0000000100000000#16 = .command .kclr ∧
  decode true 0b0000001001001011#16 = .command (.kpush 0x4B#8) ∧
  decode true 0b0000001100000000#16 = .command .init ∧
  decode true 0b0000010001010000#16 = .command (.xform 0x50#8) ∧
  decode true 0b0001000000000000#16 = .command .rdstat ∧
  decode true 0b0001010011011110#16 = .command (.rds 0xDE#8) ∧
  decode true 0b0000010100000000#16 = .reserved 0x05#8

/-- Decode after encode (R77, R81): no operand bit is dropped, for every command a build has. -/
def Obligations.DecodeOfEncode : Prop :=
  ∀ (dbg : Bool) (i : Instr), i.wellFormed dbg = true → decode dbg (encode i) = .command i

/-- Encode after decode (R77, R78): a word that decodes to `i` has the opcode of `i`, it IS the word of
`i` where `i` has an operand, and where `i` has none the two differ in the ignored `imm8` only. -/
def Obligations.EncodeOfDecode : Prop :=
  ∀ (dbg : Bool) (w : Word) (i : Instr), decode dbg w = .command i →
    i.wellFormed dbg = true ∧ Word.op (encode i) = Word.op w ∧
    ((∃ b, i.operand = some b) → encode i = w) ∧ (i.operand = none → encode i = Word.op w ++ 0x00#8)

/-- R82, R83: the reserved words are exactly those with a reserved opcode. -/
def Obligations.ReservedWordsExactly : Prop :=
  ∀ (dbg : Bool) (w : Word),
    decode dbg w = .reserved (Word.op w) ↔ reservedOp dbg (Word.op w).toNat

/-- R85, the operand rules of the assembler, for every command: with exactly the operand it takes, its
mnemonic emits its word (`imm8 = 0x00` where it takes none); an operand given to a command that takes none
is an error, and so is an operand above 255. -/
def Obligations.AssemblerOperandRules : Prop :=
  ∀ i : Instr,
    (∀ b, i.operand = some b → assembleCommand (mnemonicOf i) [b.toNat] = .ok [encode i]) ∧
    (i.operand = none → assembleCommand (mnemonicOf i) [] = .ok [encode i]) ∧
    (i.operand = none → ∀ n, assembleCommand (mnemonicOf i) [n] = .error .operandNotAllowed) ∧
    ((∃ b, i.operand = some b) → ∀ n, 256 ≤ n →
      assembleCommand (mnemonicOf i) [n] = .error .outOfRange)

/-! ## A step, the ports and the handshake -/

/-- A STEP RUNS THE DECODED COMMAND (R14, R72). An idle engine that is presented a word which decodes to
`i` accepts it, and where the edge completes the command (the model's pace, log 3) the step is `exec i` of the
state with that word in flight; a command in flight that an edge completes is `exec i` too. An accepted
reserved word answers (0x00, ILLEGAL_OP) with no architectural state changed (R75, R163). -/
def Obligations.StepRunsDecodedCommand : Prop :=
  ∀ (s : State) (e : ClockEdge) (rest : List ClockEdge) (i : Instr),
    s.inputs = e :: rest → e.rst = false → e.pace = .finish → (s.held = none ∨ s.held = e.presented) →
    (s.phase = .idle → e.cmdValid = true → decode s.debugRead e.cmdWord = .command i →
      step s = exec i { s with inputs := rest, phase := .exec e.cmdWord, held := none }) ∧
    (∀ w, s.phase = .exec w → decode s.debugRead w = .command i →
      step s = exec i { s with inputs := rest, held := e.presented }) ∧
    (s.phase = .idle → e.cmdValid = true → reservedOp s.debugRead (Word.op e.cmdWord).toNat →
      step s = .next { s with inputs := rest, held := none, phase := .resp ⟨0x00#8, .illegalOp⟩ })

/-- `withFetchWord` puts a command where the next step runs it (log 2). -/
def Obligations.FetchedWordRuns : Prop :=
  ∀ (s : State) (i : Instr), i.wellFormed s.debugRead = true →
    step (s.withFetchWord 16 (encode i).toNat) =
      exec i { s with phase := .exec (encode i), held := none }

/-- R73, R74, R190, the handshake outputs: `cmd_ready = 1` exactly in the phase IDLE with `rst = 0`, and
`rsp_valid = 1` with the response exactly in the phase RESP with `rst = 0`. -/
def Obligations.HandshakeOutputs : Prop :=
  ∀ (s : State) (rst : Bool),
    (s.cmdReady rst = true ↔ s.phase = .idle ∧ rst = false) ∧
    (∀ r, s.rspPort rst = some r ↔ s.phase = .resp r ∧ rst = false) ∧
    (s.rspValid rst = true ↔ (∃ r, s.phase = .resp r) ∧ rst = false)

/-- R72, R73: outside the phase IDLE the command port does nothing: two edges that differ only in
`cmd_valid` and `cmd_word` (and break no handshake) leave the same state, but for the model's own `held`
(log 5). -/
def Obligations.CommandPortIgnoredUnlessIdle : Prop :=
  ∀ (s t : State) (e f : ClockEdge), s.phase ≠ .idle → e.rst = f.rst → e.rspReady = f.rspReady →
    e.pace = f.pace → s.handshakeBroken e = false → s.handshakeBroken f = false →
    State.clockEdge e s = .next t →
    ∃ u, State.clockEdge f s = .next u ∧ { u with held := none } = { t with held := none }

/-- R74: a waiting response is held unchanged until an edge with `rsp_ready = 1`, which takes it; neither
edge changes any other state of the engine (`held` is the model's own, log 5). -/
def Obligations.ResponseHeldUntilTaken : Prop :=
  ∀ (s : State) (e : ClockEdge) (rest : List ClockEdge) (r : Response),
    s.inputs = e :: rest → e.rst = false → (s.held = none ∨ s.held = e.presented) → s.phase = .resp r →
    (e.rspReady = false → step s = .next { s with inputs := rest, held := e.presented }) ∧
    (e.rspReady = true → step s = .next { s with inputs := rest, held := e.presented, phase := .idle })

/-- R76: a host that changes `cmd_word` or drops `cmd_valid` before acceptance is refused, at every edge, a
reset edge included (the memory of what it owes is the model's own, log 5). -/
def Obligations.BrokenHandshakeRefused : Prop :=
  ∀ (s : State) (e : ClockEdge) (rest : List ClockEdge) (w : Word),
    s.inputs = e :: rest → s.held = some w → (e.cmdValid = false ∨ e.cmdWord ≠ w) →
    step s = .refused .handshakeBroken

/-- R160, R201: nothing but a broken handshake stops the engine. -/
def Obligations.OnlyBrokenHandshakeStops : Prop :=
  ∀ s : State, (∃ t, step s = .next t) ∨
    (step s = .refused .handshakeBroken ∧
      ∃ e rest w, s.inputs = e :: rest ∧ s.held = some w ∧
        (e.cmdValid = false ∨ e.cmdWord ≠ w))

/-- R190, R191: a reset edge, in whatever phase, by a host that keeps the handshake (one that breaks it is
`BrokenHandshakeRefused`): the registers of R36, no command in flight, no response, and `S` and `K` not
written. -/
def Obligations.ResetEdgeEffect : Prop :=
  ∀ (s : State) (e : ClockEdge) (rest : List ClockEdge), s.inputs = e :: rest → e.rst = true →
    (s.held = none ∨ s.held = e.presented) →
    step s = .next
      { s with inputs := rest, held := e.presented, I := 0#8, J := 0#8, KLEN := 0#9, KOVF := false,
               INITD := false, phase := .idle }

/-- R192: after a reset edge `cmd_ready = 1` as soon as `rst = 0`, STATUS is 0x00, and XFORM, RDI, RDJ and
RDS (in a build that has them) answer NOT_INIT. -/
def Obligations.UninitialisedAfterReset : Prop :=
  ∀ (s t : State) (e : ClockEdge) (rest : List ClockEdge), s.inputs = e :: rest → e.rst = true →
    step s = .next t →
    t.cmdReady false = true ∧ t.statusPort = 0x00#8 ∧
    (∀ d, exec (.xform d) t = .next { t with phase := .resp ⟨0x00#8, .notInit⟩ }) ∧
    (t.debugRead = true → ∀ n,
      exec .rdi t = .next { t with phase := .resp ⟨0x00#8, .notInit⟩ } ∧
      exec .rdj t = .next { t with phase := .resp ⟨0x00#8, .notInit⟩ } ∧
      exec (.rds n) t = .next { t with phase := .resp ⟨0x00#8, .notInit⟩ })

/-- R36, the reset values the spec gives. -/
def Obligations.ResetValues : Prop :=
  State.reset.I = 0#8 ∧ State.reset.J = 0#8 ∧ State.reset.KLEN = 0#9 ∧ State.reset.KOVF = false ∧
  State.reset.INITD = false ∧ State.reset.busy = false ∧ State.reset.statusReg = 0x00#8 ∧
  State.reset.phase = .idle ∧ State.reset.rspValid false = false

/-- R175: while the clock does not run (no edge in the model's input list, log 8) nothing changes. -/
def Obligations.StoppedClockHoldsState : Prop :=
  ∀ s : State, s.inputs = [] → step s = .next s

/-! ## The commands -/

/-- R123, NOP: the response (0x00, OK), no state changed, `imm8` ignored. -/
def Obligations.NopResult : Prop :=
  ∀ s : State, exec .nop s = .next { s with phase := .resp ⟨0x00#8, .ok⟩ } ∧
    ∀ b : Byte, s.complete (0x00#8 ++ b) = .next { s with phase := .resp ⟨0x00#8, .ok⟩ }

/-- R100, KCLR: `KLEN <- 0`, `KOVF <- 0`, nothing else (the key bytes stay); `imm8` ignored; STATUS bits 2
and 3 read 0 afterwards. -/
def Obligations.KclrResult : Prop :=
  ∀ s : State, ∃ t : State,
    t = { s with KLEN := 0#9, KOVF := false, phase := .resp ⟨0x00#8, .ok⟩ } ∧
    exec .kclr s = .next t ∧ (∀ b : Byte, s.complete (0x01#8 ++ b) = .next t) ∧
    t.statusReg.getLsbD 2 = false ∧ t.statusReg.getLsbD 3 = false

/-- R101, KPUSH: below 256 the byte is stored at `KLEN[7:0]` and `KLEN` counts up, every other key byte
reads as before; at 256 the byte is dropped and `KOVF` set. Nothing else changes. -/
def Obligations.KpushResult : Prop :=
  ∀ (b : Byte) (s : State),
    s.complete (0x02#8 ++ b) = exec (.kpush b) s ∧
    (s.KLEN < 256#9 → ∃ K' : Memory,
      exec (.kpush b) s = .next { s with K := K', KLEN := s.KLEN + 1#9, phase := .resp ⟨0x00#8, .ok⟩ } ∧
      s.keySlot.toNat = s.KLEN.toNat ∧ keyAt K' s.keySlot = b ∧
      ∀ n, n ≠ s.keySlot → keyAt K' n = keyAt s.K n) ∧
    (s.KLEN = 256#9 →
      exec (.kpush b) s = .next { s with KOVF := true, phase := .resp ⟨0x00#8, .ok⟩ })

/-- R104: INIT with an empty or an over-long key answers INVALID_KEY and changes nothing, and the pass does
not start; every other key passes. -/
def Obligations.InitRejectsBadKey : Prop :=
  ∀ s : State,
    ((s.KLEN = 0#9 ∨ s.KOVF = true) →
      exec .init s = .next { s with phase := .resp ⟨0x00#8, .invalidKey⟩ } ∧ ∀ w, s.startsPass w = false) ∧
    (s.KLEN ≠ 0#9 → s.KOVF = false → s.startsPass (encode .init) = true ∧
      ∃ t, exec .init s = .next t ∧ t.phase = .resp ⟨0x00#8, .ok⟩)

/-- R103, R108, R110: INIT (whose `imm8` is ignored) with a valid key builds the table of the pass over
`K[0..KLEN-1]`, sets `I = J = 0` and `INITD = 1`, and leaves the key buffer alone. -/
def Obligations.InitResult : Prop :=
  ∀ s : State, s.KLEN ≠ 0#9 → s.KOVF = false →
    (∀ b : Byte, s.complete (0x03#8 ++ b) = exec .init s) ∧
    exec .init s = .next
      { s with S := ksaTable s.K s.KLEN.toNat, I := 0#8, J := 0#8, INITD := true,
               phase := .resp ⟨0x00#8, .ok⟩ }

/-- R105, the pass: it starts from the identity with `j = 0`; iteration `n` forms
`j' = j + S[n] + K[n mod KLEN]` and swaps `S[n]` and `S[j']`, seeing every swap before it; there are
256 of them. -/
def Obligations.KsaFollowsTheSource : Prop :=
  ∀ (K : Memory) (klen : Nat), 1 ≤ klen → klen ≤ 256 →
    (∀ n, tableAt (ksaRounds K klen 0).1 n = n) ∧ (ksaRounds K klen 0).2 = 0#8 ∧
    (∀ n, n < 256 → ∀ (ki j' : Byte), ki = BitVec.ofNat 8 n →
      j' = (ksaRounds K klen n).2 + tableAt (ksaRounds K klen n).1 ki + keyAt K (BitVec.ofNat 8 (n % klen)) →
      (ksaRounds K klen (n + 1)).2 = j' ∧
      tableAt (ksaRounds K klen (n + 1)).1 ki = tableAt (ksaRounds K klen n).1 j' ∧
      tableAt (ksaRounds K klen (n + 1)).1 j' = tableAt (ksaRounds K klen n).1 ki ∧
      ∀ m, m ≠ ki → m ≠ j' →
        tableAt (ksaRounds K klen (n + 1)).1 m = tableAt (ksaRounds K klen n).1 m) ∧
    ∀ n, n = 256 → ksaTable K klen = (ksaRounds K klen n).1

/-- R120, R121, R122, XFORM: the five steps of the per-byte step in order, the response `d XOR ks`, and
nothing else changed; NOT_INIT and no change where `INITD = 0`. The table is written at the two indices
the step computes, and nowhere else. -/
def Obligations.XformResult : Prop :=
  ∀ (d : Byte) (s : State),
    s.complete (0x04#8 ++ d) = exec (.xform d) s ∧
    (s.INITD = true → ∀ I' J' : Byte, I' = s.I + 1#8 → J' = s.J + tableAt s.S I' → ∃ S' : Memory,
      exec (.xform d) s = .next
        { s with S := S', I := I', J := J',
                 phase := .resp ⟨d ^^^ tableAt S' (tableAt S' I' + tableAt S' J'), .ok⟩ } ∧
      tableAt S' I' = tableAt s.S J' ∧ tableAt S' J' = tableAt s.S I' ∧
      ∀ n, n ≠ I' → n ≠ J' → tableAt S' n = tableAt s.S n) ∧
    (s.INITD = false → exec (.xform d) s = .next { s with phase := .resp ⟨0x00#8, .notInit⟩ })

/-- R140, RDSTAT: the response is `{0000, KLEN[8], KOVF, BUSY, INITD}`, nothing else changes; and where a
command executes, BUSY reads 0. -/
def Obligations.RdstatResult : Prop :=
  ∀ s : State, (∀ b : Byte, s.complete (0x10#8 ++ b) = exec .rdstat s) ∧ ∃ v : Byte,
    exec .rdstat s = .next { s with phase := .resp ⟨v, .ok⟩ } ∧
    v.getLsbD 0 = s.INITD ∧ v.getLsbD 1 = s.busy ∧ v.getLsbD 2 = s.KOVF ∧ v.getLsbD 3 = s.KLEN.getLsbD 8 ∧
    (∀ k, 4 ≤ k → v.getLsbD k = false) ∧ ((∃ w, s.phase = .exec w) → v.getLsbD 1 = false)

/-- R141, RDKLEN: the response is `KLEN[7:0]`, which reads 0x00 for both `KLEN = 0` and `KLEN = 256`. -/
def Obligations.RdklenResult : Prop :=
  ∀ s : State, (∀ b : Byte, s.complete (0x11#8 ++ b) = exec .rdklen s) ∧ ∃ v : Byte,
    exec .rdklen s = .next { s with phase := .resp ⟨v, .ok⟩ } ∧ v.toNat = s.KLEN.toNat % 256 ∧
    ((s.KLEN = 0#9 ∨ s.KLEN = 256#9) → v = 0x00#8)

/-- R142, RDI: `I`, where both checks pass; `imm8` ignored; nothing else changes. -/
def Obligations.RdiResult : Prop :=
  ∀ s : State,
    (∀ b : Byte, s.complete (0x12#8 ++ b) = exec .rdi s) ∧
    (s.debugRead = true → s.INITD = true → exec .rdi s = .next { s with phase := .resp ⟨s.I, .ok⟩ }) ∧
    (s.debugRead = false → exec .rdi s = .next { s with phase := .resp ⟨0x00#8, .illegalOp⟩ }) ∧
    (s.debugRead = true → s.INITD = false →
      exec .rdi s = .next { s with phase := .resp ⟨0x00#8, .notInit⟩ })

/-- R143, RDJ: `J`, where both checks pass; `imm8` ignored; nothing else changes. -/
def Obligations.RdjResult : Prop :=
  ∀ s : State,
    (∀ b : Byte, s.complete (0x13#8 ++ b) = exec .rdj s) ∧
    (s.debugRead = true → s.INITD = true → exec .rdj s = .next { s with phase := .resp ⟨s.J, .ok⟩ }) ∧
    (s.debugRead = false → exec .rdj s = .next { s with phase := .resp ⟨0x00#8, .illegalOp⟩ }) ∧
    (s.debugRead = true → s.INITD = false →
      exec .rdj s = .next { s with phase := .resp ⟨0x00#8, .notInit⟩ })

/-- R144, RDS: every index `n` is valid. -/
def Obligations.RdsResult : Prop :=
  ∀ (n : Byte) (s : State),
    s.complete (0x14#8 ++ n) = exec (.rds n) s ∧
    (s.debugRead = true → s.INITD = true →
      exec (.rds n) s = .next { s with phase := .resp ⟨tableAt s.S n, .ok⟩ }) ∧
    (s.debugRead = false → exec (.rds n) s = .next { s with phase := .resp ⟨0x00#8, .illegalOp⟩ }) ∧
    (s.debugRead = true → s.INITD = false →
      exec (.rds n) s = .next { s with phase := .resp ⟨0x00#8, .notInit⟩ })

/-! ## Errors and status -/

/-- R80, the values of the response codes. -/
def Obligations.ResponseCodeValues : Prop :=
  RspCode.ok.bits = 0#2 ∧ RspCode.invalidKey.bits = 1#2 ∧ RspCode.notInit.bits = 2#2 ∧
  RspCode.illegalOp.bits = 3#2

/-- R163: a reserved opcode answers (0x00, ILLEGAL_OP), whatever `imm8`, and changes no state. -/
def Obligations.ReservedOpcodeIsIllegal : Prop :=
  ∀ (s : State) (w : Word), reservedOp s.debugRead (Word.op w).toNat →
    s.complete w = .next { s with phase := .resp ⟨0x00#8, .illegalOp⟩ }

/-- R164: every command word gets exactly one response, whose code is the first that applies of
ILLEGAL_OP, NOT_INIT, INVALID_KEY, and OK otherwise. -/
def Obligations.ResponseCodePriority : Prop :=
  ∀ (s : State) (w : Word), ∃ t r, s.complete w = .next t ∧ t.phase = .resp r ∧
    r.code =
      if reservedOp s.debugRead (Word.op w).toNat then .illegalOp
      else if needsInit (Word.op w).toNat ∧ s.INITD = false then .notInit
      else if (Word.op w).toNat = 0x03 ∧ (s.KLEN = 0#9 ∨ s.KOVF = true) then .invalidKey
      else .ok

/-- R165: NOP, KCLR, KPUSH, RDSTAT and RDKLEN always answer OK; KPUSH on a full buffer does so too and sets
`KOVF`. -/
def Obligations.CommandsThatNeverFail : Prop :=
  ∀ (s : State) (b : Byte) (i : Instr),
    (i = .nop ∨ i = .kclr ∨ i = .kpush b ∨ i = .rdstat ∨ i = .rdklen) →
    ∃ t v, exec i s = .next t ∧ t.phase = .resp ⟨v, .ok⟩ ∧
      (i = .kpush b → s.KLEN = 256#9 → t.KOVF = true)

/-- R166: a command that completes with another code than OK writes no architectural state and returns
the data byte 0x00. -/
def Obligations.ErrorWritesNothing : Prop :=
  ∀ (s t : State) (w : Word) (r : Response), s.complete w = .next t → t.phase = .resp r → r.code ≠ .ok →
    t = { s with phase := .resp ⟨0x00#8, r.code⟩ }

/-- R29, STATUS: its fields, with KFULL 1 exactly when `KLEN = 256` (for a legal `KLEN`, R25), and bits 7:4
reading 0. -/
def Obligations.StatusFields : Prop :=
  ∀ s : State, s.KLEN ≤ 256#9 →
    s.statusReg.getLsbD 0 = s.INITD ∧ s.statusReg.getLsbD 1 = s.busy ∧ s.statusReg.getLsbD 2 = s.KOVF ∧
    (s.statusReg.getLsbD 3 = true ↔ s.KLEN = 256#9) ∧ ∀ k, 4 ≤ k → s.statusReg.getLsbD k = false

/-- R30, the `status` port: outside a command's execution it shows STATUS, so a valid response finds it at
the state the command's rule gives; BUSY and INITD are as they stand in every phase, BUSY 1 exactly in a pass
and INITD 0 throughout it; bits 7:4 read 0. (What KFULL and KOVF show while a command executes is free, log 6.) -/
def Obligations.StatusPortShowsStatus : Prop :=
  ∀ s : State,
    ((s.phase = .idle ∨ ∃ r, s.phase = .resp r) → s.statusPort = s.statusReg) ∧
    s.statusPort.getLsbD 0 = s.INITD ∧ s.statusPort.getLsbD 1 = s.busy ∧
    (s.busy = true ↔ ∃ r, s.phase = .ksa r) ∧
    (s.Inv → s.busy = true → s.statusPort.getLsbD 0 = false) ∧
    ∀ k, 4 ≤ k → s.statusPort.getLsbD k = false

/-! ## The PRGA step -/

/-- R196: the keystream read returns the table after the swap: at `t = I` that is the old `S[J]`, at `t = J`
the old `S[I]`, and anywhere else the entry that the swap left alone. -/
def Obligations.KeystreamReadAfterSwap : Prop :=
  ∀ (S : Memory) (I J I' J' t : Byte), I' = I + 1#8 → J' = J + tableAt S I' →
    t = tableAt S I' + tableAt S J' →
    (prga S I J).ks = tableAt (prga S I J).S t ∧
    (t = I' → (prga S I J).ks = tableAt S J') ∧ (t = J' → (prga S I J).ks = tableAt S I') ∧
    (t ≠ I' → t ≠ J' → (prga S I J).ks = tableAt S t)

/-- R129: (a) `t` is the same from the entries before and after the swap; (b) when the new `J` is the new
`I`, the entry read is `I - J_old`, `t` is twice that entry and even, and the swap changes no entry. -/
def Obligations.StepArithmetic : Prop :=
  ∀ (S : Memory) (I J I' J' : Byte), I' = I + 1#8 → J' = J + tableAt S I' →
    tableAt (prga S I J).S I' + tableAt (prga S I J).S J' = tableAt S I' + tableAt S J' ∧
    (J' = I' →
      tableAt S I' = I' - J ∧
      tableAt (prga S I J).S I' + tableAt (prga S I J).S J' = 2#8 * tableAt S I' ∧
      (tableAt (prga S I J).S I' + tableAt (prga S I J).S J').getLsbD 0 = false ∧
      ∀ n, tableAt (prga S I J).S n = tableAt S n)

/-- R125: the state after an XFORM and the keystream byte it uses do not depend on the data byte. -/
def Obligations.KeystreamIndependentOfData : Prop :=
  ∀ (d d' : Byte) (s t t' : State), s.INITD = true → exec (.xform d) s = .next t →
    exec (.xform d') s = .next t' →
    { t' with phase := t.phase } = t ∧
    ∃ ks : Byte, t.phase = .resp ⟨d ^^^ ks, .ok⟩ ∧ t'.phase = .resp ⟨d' ^^^ ks, .ok⟩

/-- R128: an XFORM keeps the table a permutation. -/
def Obligations.XformKeepsPermutation : Prop :=
  ∀ (d : Byte) (s t : State), tableIsPermutation s.S → exec (.xform d) s = .next t →
    tableIsPermutation t.S

/-! ## The key schedule -/

/-- R107 (a): the table after a successful INIT is a permutation, whatever the state before. -/
def Obligations.InitGivesPermutation : Prop :=
  ∀ s : State, s.KLEN ≠ 0#9 → s.KOVF = false →
    ∃ t, exec .init s = .next t ∧ t.INITD = true ∧ tableIsPermutation t.S

/-- R107 (b): the result of INIT depends only on `K[0..KLEN-1]` and `KLEN` (and `KOVF`), not on the prior
`S`, `I`, `J`, `INITD`, nor on the key bytes from `KLEN` on. -/
def Obligations.InitDependsOnKeyOnly : Prop :=
  ∀ s t s' : State, s.KLEN ≠ 0#9 → s.KOVF = false → t.KLEN = s.KLEN → t.KOVF = s.KOVF →
    (∀ n : Byte, n.toNat < s.KLEN.toNat → keyAt t.K n = keyAt s.K n) → exec .init s = .next s' →
    ∃ t', exec .init t = .next t' ∧ t'.S = s'.S ∧ t'.I = s'.I ∧ t'.J = s'.J ∧ t'.INITD = s'.INITD ∧
      t'.phase = s'.phase

/-- R107 (c): a key and the same key repeated, to a multiple of its length or cyclically to 256 bytes,
give the same table. -/
def Obligations.RepeatedKeySameTable : Prop :=
  ∀ (K K' : Memory) (p q : Nat), 1 ≤ p → p ≤ q → q ≤ 256 → (p ∣ q ∨ q = 256) →
    (∀ n, n < q → keyAt K' (BitVec.ofNat 8 n) = keyAt K (BitVec.ofNat 8 (n % p))) →
    ksaTable K' q = ksaTable K p

/-- R55, R110: INIT twice with the same key buffer leaves what INIT once leaves. -/
def Obligations.InitIsIdempotent : Prop :=
  ∀ s t : State, s.KLEN ≠ 0#9 → s.KOVF = false → exec .init s = .next t → exec .init t = .next t

/-- R86, R103, R104: `LDKEY` on a ready engine. A key of 1 to 256 bytes: every response is (0x00, OK), the
key buffer holds the key in order, and the engine is at position 0 of its keystream. A key of no byte or of
more than 256: the last response is INVALID_KEY and the running keystream is kept. -/
def Obligations.LdkeyLoadsTheKey : Prop :=
  ∀ (key : List Byte) (s : State), s.ready → ∃ t rs, session (pseudoLdkey key) s = some (t, rs) ∧ t.ready ∧
    (1 ≤ key.length → key.length ≤ 256 →
      (∀ r ∈ rs, r = ⟨0x00#8, .ok⟩) ∧ t.KLEN.toNat = key.length ∧ t.KOVF = false ∧ t.INITD = true ∧
      t.I = 0#8 ∧ t.J = 0#8 ∧ t.S = ksaTable t.K key.length ∧
      ∀ n (h : n < key.length), keyAt t.K (BitVec.ofNat 8 n) = key[n]) ∧
    ((key.length = 0 ∨ 257 ≤ key.length) →
      rs.getLast? = some ⟨0x00#8, .invalidKey⟩ ∧ t.S = s.S ∧ t.I = s.I ∧ t.J = s.J ∧ t.INITD = s.INITD)

/-! ## Invariants -/

/-- The invariant holds after reset. -/
def Obligations.ResetMeetsInv : Prop := State.reset.Inv

/-- EVERY STEP KEEPS THE INVARIANT (R21, R25, R102, R104 to R106, R109, R195), from every state that meets
it: the arrays stay in canonical form, `KLEN` legal, the key written up to `KLEN`, an initialised engine's
table a written permutation, and a running pass where the source's loop is after `ki` iterations. -/
def Obligations.StepKeepsInv : Prop :=
  ∀ s t : State, s.Inv → step s = .next t → t.Inv

/-- R102: `KOVF = 1` implies `KLEN = 256`, after reset and after every step from a state where it holds
(and `KLEN` is legal). INIT's check then sees one of three cases. -/
def Obligations.OverflowImpliesFull : Prop :=
  (State.reset.KOVF = true → State.reset.KLEN = 256#9) ∧
  (∀ s t : State, s.KLEN ≤ 256#9 → (s.KOVF = true → s.KLEN = 256#9) → step s = .next t →
    t.KLEN ≤ 256#9 ∧ (t.KOVF = true → t.KLEN = 256#9)) ∧
  ∀ s : State, (s.KOVF = true → s.KLEN = 256#9) →
    (s.KLEN = 0#9 ∧ s.KOVF = false) ∨ (s.KLEN = 256#9 ∧ s.KOVF = true) ∨ (s.KLEN ≠ 0#9 ∧ s.KOVF = false)

/-- R21: whenever `INITD = 1` the table is a permutation, after reset and after every step from a state
where it is (and where a running pass's table is). -/
def Obligations.TableStaysPermutation : Prop :=
  (State.reset.INITD = true → tableIsPermutation State.reset.S) ∧
  ∀ s t : State, ((s.INITD = true ∨ s.busy = true) → tableIsPermutation s.S) → step s = .next t →
    ((t.INITD = true ∨ t.busy = true) → tableIsPermutation t.S)

/-! ## Latency: the pass edge by edge -/

/-- R14, R109, R199: whatever the implementation's pace (log 3), a command leaves the state and the response
that its atomic rule gives. From a command just accepted, over any edges without reset at which no response
is taken: once the response is there, everything but the model's own `held` and `inputs` is as the command's
completion leaves it. -/
def Obligations.PacedCommandMatchesAtomic : Prop :=
  ∀ (n : Nat) (s t u : State) (w : Word) (r : Response), s.phase = .exec w →
    (∀ e ∈ s.inputs.take n, e.rst = false ∧ e.rspReady = false) →
    s.steps n = .next t → t.phase = .resp r → s.complete w = .next u →
    t = { u with held := t.held, inputs := t.inputs }

/-- R28, R105, R109: at one unit of work an edge (the model's slowest pace, log 3), an INIT's pass shows
`BUSY = 1` and `INITD = 0` at each of 256 edges, has done `n` iterations after `n` of them, and then its
response is valid. -/
def Obligations.PassTakes256Iterations : Prop :=
  ∀ (s : State) (w : Word) (e : ClockEdge), s.phase = .exec w → s.startsPass w = true → s.held = none →
    e = { rst := false, cmdValid := false, cmdWord := 0#16, rspReady := false, pace := .work } →
    (∀ n, n < 256 → ∃ t r, State.steps (n + 1) { s with inputs := List.replicate 257 e } = .next t ∧
      t.phase = .ksa r ∧ r.ki.toNat = n ∧ t.busy = true ∧ t.INITD = false ∧
      t.statusPort.getLsbD 1 = true ∧ t.statusPort.getLsbD 0 = false) ∧
    ∃ t, State.steps 257 { s with inputs := List.replicate 257 e } = .next t ∧
      t.phase = .resp ⟨0x00#8, .ok⟩ ∧ t.INITD = true ∧ t.busy = false

/-- R201: every command in flight, in every phase, gets its response at an edge that does what is left of
it; and the engine is IDLE again at the next edge at which the host takes it. -/
def Obligations.InFlightCommandCompletes : Prop :=
  ∀ (s : State) (e f : ClockEdge) (rest : List ClockEdge), s.inFlight → s.inputs = e :: f :: rest →
    e.rst = false → e.pace = .finish → (s.held = none ∨ s.held = e.presented) →
    f.rst = false → f.rspReady = true → (e.presented = none ∨ e.presented = f.presented) →
    ∃ t u r, step s = .next t ∧ t.phase = .resp r ∧ step t = .next u ∧ u.phase = .idle

/-! ## What cannot be seen -/

/-- R195: the contents the spec leaves unspecified (`S` while the engine is not initialised, `K` from `KLEN`
on) are never observed: two states that differ in nothing else step to states that differ in nothing else,
and so give the same responses (the response is part of the phase). -/
def Obligations.UnspecifiedContentsUnobserved : Prop :=
  ∀ s t s' : State, s.Inv → s.SameButUnspecified t → step s = .next s' →
    ∃ t', step t = .next t' ∧ s'.SameButUnspecified t'

/-- R145: no response depends on the contents of the key buffer, and no command but INIT lets them into the
rest of the engine. -/
def Obligations.KeyBufferNeverReturned : Prop :=
  ∀ (i : Instr) (s t t' : State) (K' : Memory), exec i s = .next t → exec i { s with K := K' } = .next t' →
    t'.phase = t.phase ∧ (i ≠ .init → { t' with K := t.K } = t)

/-- R146: nothing but RDI, RDJ and RDS depends on `DEBUG_READ`. -/
def Obligations.DebugReadGatesThreeCommands : Prop :=
  (∀ (i : Instr) (s t : State) (dbg : Bool), i.isDebugRead = false → exec i s = .next t →
    exec i { s with debugRead := dbg } = .next { t with debugRead := dbg }) ∧
  ∀ w : Word, ¬ (0x12 ≤ (Word.op w).toNat ∧ (Word.op w).toNat ≤ 0x14) → decode true w = decode false w

/-- R35: key commands leave the running keystream alone, and XFORM reads nothing of the key buffer. -/
def Obligations.KeystreamIgnoresKeyBuffer : Prop :=
  (∀ (b : Byte) (i : Instr) (s t : State), (i = .kclr ∨ i = .kpush b) → exec i s = .next t →
    t.S = s.S ∧ t.I = s.I ∧ t.J = s.J ∧ t.INITD = s.INITD) ∧
  ∀ (d : Byte) (s t : State) (K' : Memory) (n : BitVec 9) (o : Bool), exec (.xform d) s = .next t →
    exec (.xform d) { s with K := K', KLEN := n, KOVF := o } = .next { t with K := K', KLEN := n, KOVF := o }

/-! ## Sequences of commands -/

/-- R75, R124: every command of a sequence, reserved words included, gets exactly one response, in order,
and the engine is ready again after each. -/
def Obligations.OneResponsePerCommand : Prop :=
  ∀ (ws : List Word) (s : State), s.ready →
    ∃ t rs, session ws s = some (t, rs) ∧ rs.length = ws.length ∧ t.ready

/-- R126, THE INVOLUTION: for every key of 1 to 256 bytes and every message, on any two ready engines (or
the same one), the message transformed under the key and transformed again under the key freshly loaded
is the message. -/
def Obligations.EncryptThenDecrypt : Prop :=
  ∀ (key msg : List Byte) (s u : State), s.ready → u.ready → 1 ≤ key.length → key.length ≤ 256 →
    ∃ s1 rs s2 cipher u1 rs' u2,
      session (pseudoLdkey key) s = some (s1, rs) ∧ transformBuffer msg s1 = some (s2, cipher) ∧
      session (pseudoLdkey key) u = some (u1, rs') ∧ transformBuffer cipher u1 = some (u2, msg) ∧
      cipher.length = msg.length

/-- R127, continuity: a message in two pieces, with any commands but INIT and XFORM (reserved words
included) between them, gives the responses of the whole message. -/
def Obligations.KeystreamContinuity : Prop :=
  ∀ (m1 m2 : List Byte) (ws : List Word) (s : State), s.ready →
    (∀ w ∈ ws, (Word.op w).toNat ≠ 0x03 ∧ (Word.op w).toNat ≠ 0x04) →
    ∃ s1 out1 s2 rs s3 out2 s4,
      transformBuffer m1 s = some (s1, out1) ∧ session ws s1 = some (s2, rs) ∧
      transformBuffer m2 s2 = some (s3, out2) ∧ transformBuffer (m1 ++ m2) s = some (s4, out1 ++ out2)

/-- R130: `I` counts the XFORMs modulo 256, over any sequence of commands without INIT on an initialised
engine. -/
def Obligations.IndexCountsXforms : Prop :=
  ∀ (ws : List Word) (s : State), s.ready → s.INITD = true → (∀ w ∈ ws, (Word.op w).toNat ≠ 0x03) →
    ∃ t rs, session ws s = some (t, rs) ∧
      t.I = s.I + BitVec.ofNat 8 (ws.countP fun w => (Word.op w).toNat = 0x04)
end

