-- ==== Sys2Proof/Laws/Decode.lean ====
section
/-! SUPPORT. What the decoder can answer (spec/30_encoding.md R77, R81, R83). -/

namespace Sys2Proof

/-- A word that decodes to `i` has the opcode of `i`, and its `imm8` is the operand `i` has; the build has
`i`. -/
theorem decode_cases {dbg : Bool} {w : Word} {i : Instr} (h : decode dbg w = .command i) :
    i.wellFormed dbg = true ∧ Word.op w = i.opcode ∧ ∀ b, i.operand = some b → b = Word.imm8 w := by
  unfold decode at h
  split at h
  all_goals try split at h
  all_goals
    first
    | (cases h; done)
    | (cases h
       refine ⟨by simp_all [Instr.wellFormed, Instr.isDebugRead],
         BitVec.eq_of_toNat_eq (by simpa [Instr.opcode] using ‹_›), by simp [Instr.operand]⟩)

end Sys2Proof
end

