-- ==== Sys2Proof/Laws/State.lean ====
section
/-! SUPPORT. Each named update of State, field by field: what it writes and what it leaves. -/

namespace Sys2Proof.Machine

open Sys2Proof

variable (s : State)

/-! ## `State.respond` -/

@[simp] theorem State.respond_S (d : Byte) (c : RspCode) : (s.respond d c).S = s.S := rfl
@[simp] theorem State.respond_I (d : Byte) (c : RspCode) : (s.respond d c).I = s.I := rfl
@[simp] theorem State.respond_J (d : Byte) (c : RspCode) : (s.respond d c).J = s.J := rfl
@[simp] theorem State.respond_K (d : Byte) (c : RspCode) : (s.respond d c).K = s.K := rfl
@[simp] theorem State.respond_KLEN (d : Byte) (c : RspCode) : (s.respond d c).KLEN = s.KLEN := rfl
@[simp] theorem State.respond_KOVF (d : Byte) (c : RspCode) : (s.respond d c).KOVF = s.KOVF := rfl
@[simp] theorem State.respond_INITD (d : Byte) (c : RspCode) : (s.respond d c).INITD = s.INITD := rfl
@[simp] theorem State.respond_phase (d : Byte) (c : RspCode) : (s.respond d c).phase = .resp ⟨d, c⟩ := rfl
@[simp] theorem State.respond_debugRead (d : Byte) (c : RspCode) : (s.respond d c).debugRead = s.debugRead := rfl
@[simp] theorem State.respond_held (d : Byte) (c : RspCode) : (s.respond d c).held = s.held := rfl
@[simp] theorem State.respond_inputs (d : Byte) (c : RspCode) : (s.respond d c).inputs = s.inputs := rfl

/-! ## `State.raiseError` -/

@[simp] theorem State.raiseError_S (e : RspCode) : (s.raiseError e).S = s.S := rfl
@[simp] theorem State.raiseError_I (e : RspCode) : (s.raiseError e).I = s.I := rfl
@[simp] theorem State.raiseError_J (e : RspCode) : (s.raiseError e).J = s.J := rfl
@[simp] theorem State.raiseError_K (e : RspCode) : (s.raiseError e).K = s.K := rfl
@[simp] theorem State.raiseError_KLEN (e : RspCode) : (s.raiseError e).KLEN = s.KLEN := rfl
@[simp] theorem State.raiseError_KOVF (e : RspCode) : (s.raiseError e).KOVF = s.KOVF := rfl
@[simp] theorem State.raiseError_INITD (e : RspCode) : (s.raiseError e).INITD = s.INITD := rfl
@[simp] theorem State.raiseError_phase (e : RspCode) : (s.raiseError e).phase = .resp ⟨0x00#8, e⟩ := rfl
@[simp] theorem State.raiseError_debugRead (e : RspCode) : (s.raiseError e).debugRead = s.debugRead := rfl
@[simp] theorem State.raiseError_held (e : RspCode) : (s.raiseError e).held = s.held := rfl
@[simp] theorem State.raiseError_inputs (e : RspCode) : (s.raiseError e).inputs = s.inputs := rfl

/-! ## `State.takeResponse` -/

@[simp] theorem State.takeResponse_S : (s.takeResponse).S = s.S := rfl
@[simp] theorem State.takeResponse_I : (s.takeResponse).I = s.I := rfl
@[simp] theorem State.takeResponse_J : (s.takeResponse).J = s.J := rfl
@[simp] theorem State.takeResponse_K : (s.takeResponse).K = s.K := rfl
@[simp] theorem State.takeResponse_KLEN : (s.takeResponse).KLEN = s.KLEN := rfl
@[simp] theorem State.takeResponse_KOVF : (s.takeResponse).KOVF = s.KOVF := rfl
@[simp] theorem State.takeResponse_INITD : (s.takeResponse).INITD = s.INITD := rfl
@[simp] theorem State.takeResponse_phase : (s.takeResponse).phase = .idle := rfl
@[simp] theorem State.takeResponse_debugRead : (s.takeResponse).debugRead = s.debugRead := rfl
@[simp] theorem State.takeResponse_held : (s.takeResponse).held = s.held := rfl
@[simp] theorem State.takeResponse_inputs : (s.takeResponse).inputs = s.inputs := rfl

/-! ## `State.accept` -/

@[simp] theorem State.accept_S (w : Word) : (s.accept w).S = s.S := rfl
@[simp] theorem State.accept_I (w : Word) : (s.accept w).I = s.I := rfl
@[simp] theorem State.accept_J (w : Word) : (s.accept w).J = s.J := rfl
@[simp] theorem State.accept_K (w : Word) : (s.accept w).K = s.K := rfl
@[simp] theorem State.accept_KLEN (w : Word) : (s.accept w).KLEN = s.KLEN := rfl
@[simp] theorem State.accept_KOVF (w : Word) : (s.accept w).KOVF = s.KOVF := rfl
@[simp] theorem State.accept_INITD (w : Word) : (s.accept w).INITD = s.INITD := rfl
@[simp] theorem State.accept_phase (w : Word) : (s.accept w).phase = .exec w := rfl
@[simp] theorem State.accept_debugRead (w : Word) : (s.accept w).debugRead = s.debugRead := rfl
@[simp] theorem State.accept_held (w : Word) : (s.accept w).held = none := rfl
@[simp] theorem State.accept_inputs (w : Word) : (s.accept w).inputs = s.inputs := rfl

/-! ## `State.beginPass` -/

@[simp] theorem State.beginPass_S : (s.beginPass).S = identityTable := rfl
@[simp] theorem State.beginPass_I : (s.beginPass).I = s.I := rfl
@[simp] theorem State.beginPass_J : (s.beginPass).J = s.J := rfl
@[simp] theorem State.beginPass_K : (s.beginPass).K = s.K := rfl
@[simp] theorem State.beginPass_KLEN : (s.beginPass).KLEN = s.KLEN := rfl
@[simp] theorem State.beginPass_KOVF : (s.beginPass).KOVF = s.KOVF := rfl
@[simp] theorem State.beginPass_INITD : (s.beginPass).INITD = false := rfl
@[simp] theorem State.beginPass_phase : (s.beginPass).phase = .ksa ⟨0x00#8, 0x00#8, 0x00#8⟩ := rfl
@[simp] theorem State.beginPass_debugRead : (s.beginPass).debugRead = s.debugRead := rfl
@[simp] theorem State.beginPass_held : (s.beginPass).held = s.held := rfl
@[simp] theorem State.beginPass_inputs : (s.beginPass).inputs = s.inputs := rfl

/-! ## `State.endPass` -/

@[simp] theorem State.endPass_S : (s.endPass).S = s.S := rfl
@[simp] theorem State.endPass_I : (s.endPass).I = 0x00#8 := rfl
@[simp] theorem State.endPass_J : (s.endPass).J = 0x00#8 := rfl
@[simp] theorem State.endPass_K : (s.endPass).K = s.K := rfl
@[simp] theorem State.endPass_KLEN : (s.endPass).KLEN = s.KLEN := rfl
@[simp] theorem State.endPass_KOVF : (s.endPass).KOVF = s.KOVF := rfl
@[simp] theorem State.endPass_INITD : (s.endPass).INITD = true := rfl
@[simp] theorem State.endPass_phase : (s.endPass).phase = .resp ⟨0x00#8, .ok⟩ := rfl
@[simp] theorem State.endPass_debugRead : (s.endPass).debugRead = s.debugRead := rfl
@[simp] theorem State.endPass_held : (s.endPass).held = s.held := rfl
@[simp] theorem State.endPass_inputs : (s.endPass).inputs = s.inputs := rfl

/-! ## `State.resetEdge` -/

@[simp] theorem State.resetEdge_S : (s.resetEdge).S = s.S := rfl
@[simp] theorem State.resetEdge_I : (s.resetEdge).I = 0x00#8 := rfl
@[simp] theorem State.resetEdge_J : (s.resetEdge).J = 0x00#8 := rfl
@[simp] theorem State.resetEdge_K : (s.resetEdge).K = s.K := rfl
@[simp] theorem State.resetEdge_KLEN : (s.resetEdge).KLEN = 0#9 := rfl
@[simp] theorem State.resetEdge_KOVF : (s.resetEdge).KOVF = false := rfl
@[simp] theorem State.resetEdge_INITD : (s.resetEdge).INITD = false := rfl
@[simp] theorem State.resetEdge_phase : (s.resetEdge).phase = .idle := rfl
@[simp] theorem State.resetEdge_debugRead : (s.resetEdge).debugRead = s.debugRead := rfl
@[simp] theorem State.resetEdge_held : (s.resetEdge).held = s.held := rfl
@[simp] theorem State.resetEdge_inputs : (s.resetEdge).inputs = s.inputs := rfl

/-! ## `State.withCommand` -/

@[simp] theorem State.withCommand_S (w : Word) : (s.withCommand w).S = s.S := rfl
@[simp] theorem State.withCommand_I (w : Word) : (s.withCommand w).I = s.I := rfl
@[simp] theorem State.withCommand_J (w : Word) : (s.withCommand w).J = s.J := rfl
@[simp] theorem State.withCommand_K (w : Word) : (s.withCommand w).K = s.K := rfl
@[simp] theorem State.withCommand_KLEN (w : Word) : (s.withCommand w).KLEN = s.KLEN := rfl
@[simp] theorem State.withCommand_KOVF (w : Word) : (s.withCommand w).KOVF = s.KOVF := rfl
@[simp] theorem State.withCommand_INITD (w : Word) : (s.withCommand w).INITD = s.INITD := rfl
@[simp] theorem State.withCommand_phase (w : Word) : (s.withCommand w).phase = .idle := rfl
@[simp] theorem State.withCommand_debugRead (w : Word) : (s.withCommand w).debugRead = s.debugRead := rfl
@[simp] theorem State.withCommand_held (w : Word) : (s.withCommand w).held = none := rfl
@[simp] theorem State.withCommand_inputs (w : Word) : (s.withCommand w).inputs = ClockEdge.command w :: s.inputs := rfl

end Sys2Proof.Machine
end

