-- ==== Sys2Proof/Laws/Flags.lean ====
section
/-! SUPPORT. The bits of STATUS (spec/10_state.md R29) and of the key length (R25). -/

namespace Sys2Proof.Machine

open Sys2Proof

variable (s : State)

theorem State.statusReg_initd : s.statusReg.getLsbD 0 = s.INITD := by
  simp only [State.statusReg]
  generalize s.INITD = a, s.busy = b, s.KOVF = c, s.kfull = d
  revert a b c d; decide

theorem State.statusReg_busy : s.statusReg.getLsbD 1 = s.busy := by
  simp only [State.statusReg]
  generalize s.INITD = a, s.busy = b, s.KOVF = c, s.kfull = d
  revert a b c d; decide

theorem State.statusReg_kovf : s.statusReg.getLsbD 2 = s.KOVF := by
  simp only [State.statusReg]
  generalize s.INITD = a, s.busy = b, s.KOVF = c, s.kfull = d
  revert a b c d; decide

theorem State.statusReg_kfull : s.statusReg.getLsbD 3 = s.kfull := by
  simp only [State.statusReg]
  generalize s.INITD = a, s.busy = b, s.KOVF = c, s.kfull = d
  revert a b c d; decide

theorem State.statusReg_reserved {k : Nat} (h : 4 ≤ k) : s.statusReg.getLsbD k = false := by
  by_cases hk : k < 8
  · simp only [State.statusReg]
    generalize s.INITD = a, s.busy = b, s.KOVF = c, s.kfull = d
    obtain rfl | rfl | rfl | rfl : k = 4 ∨ k = 5 ∨ k = 6 ∨ k = 7 := by omega
    all_goals (revert a b c d; decide)
  · exact BitVec.getLsbD_of_ge _ _ (by omega)

/-- KFULL is 1 exactly when `KLEN = 256`, for a legal `KLEN` (R25, R29). -/
theorem State.kfull_iff (h : s.KLEN ≤ 256#9) : s.kfull = true ↔ s.KLEN = 256#9 := by
  simp only [State.kfull]
  generalize s.KLEN = n at h
  revert n; decide

end Sys2Proof.Machine
end

