-- ==== Sys2Proof/Laws/Memory.lean ====
section
/-! SUPPORT. The laws of the two arrays: read after write, the canonical form, `swap` and the identity
fill (spec/00_scope.md R13; spec/20_memory.md R53). -/

namespace Sys2Proof.Machine

open Sys2Proof

/-! ## Read after write -/

@[simp] theorem Memory.peek_poke_self (m : Memory) (n : Nat) (v : Byte) :
    Memory.peek (Memory.poke m n v) n = some v := by
  induction m with
  | nil => simp [Memory.poke, Memory.peek]
  | cons c m ih =>
    obtain ⟨a, w⟩ := c
    simp only [Memory.poke]
    split
    · simp [Memory.peek]
    · split
      · simp [Memory.peek]
      · simp_all [Memory.peek]

theorem Memory.peek_poke_of_ne (m : Memory) {n k : Nat} (v : Byte) (h : k ≠ n) :
    Memory.peek (Memory.poke m n v) k = Memory.peek m k := by
  induction m with
  | nil => simp [Memory.poke, Memory.peek, h]
  | cons c m ih =>
    obtain ⟨a, w⟩ := c
    simp only [Memory.poke]
    split
    · simp [Memory.peek, h]
    · split
      · simp_all [Memory.peek]
      · simp [Memory.peek, ih]

theorem Memory.peek_poke (m : Memory) (n k : Nat) (v : Byte) :
    Memory.peek (Memory.poke m n v) k = if k = n then some v else Memory.peek m k := by
  split
  · next h => simp [h]
  · next h => exact Memory.peek_poke_of_ne m v h

theorem toNat_ne_of_ne {a b : Byte} (h : a ≠ b) : a.toNat ≠ b.toNat :=
  fun e => h (BitVec.eq_of_toNat_eq e)

theorem tableAt_setAt (m : Memory) (n k v : Byte) :
    tableAt (setAt m n v) k = if k = n then v else tableAt m k := by
  by_cases h : k = n
  · simp [tableAt, setAt, h]
  · simp [tableAt, setAt, h, Memory.peek_poke_of_ne m v (toNat_ne_of_ne h)]

theorem keyAt_setAt (m : Memory) (n k v : Byte) :
    keyAt (setAt m n v) k = if k = n then v else keyAt m k := by
  by_cases h : k = n
  · simp [keyAt, setAt, h]
  · simp [keyAt, setAt, h, Memory.peek_poke_of_ne m v (toNat_ne_of_ne h)]

/-! ## The canonical form -/

theorem Memory.risesFrom_poke {m : Memory} {lo n : Nat} (v : Byte) (hm : Memory.risesFrom lo m = true)
    (hlo : lo ≤ n) (hn : n < 256) : Memory.risesFrom lo (Memory.poke m n v) = true := by
  induction m generalizing lo with
  | nil => simp [Memory.poke, Memory.risesFrom, hlo, hn]
  | cons c m ih =>
    obtain ⟨a, w⟩ := c
    simp only [Memory.risesFrom, Bool.and_eq_true, decide_eq_true_eq] at hm
    obtain ⟨⟨ha, ha'⟩, hm⟩ := hm
    simp only [Memory.poke]
    split
    · simp only [Memory.risesFrom, Bool.and_eq_true, decide_eq_true_eq]
      exact ⟨⟨hlo, hn⟩, ⟨by omega, ha'⟩, hm⟩
    · split
      · next _ h => subst h; simp [Memory.risesFrom, hlo, hn, hm]
      · simp only [Memory.risesFrom, Bool.and_eq_true, decide_eq_true_eq]
        exact ⟨⟨ha, ha'⟩, ih hm (by omega)⟩

theorem Memory.wf_nil : Memory.wf [] = true := rfl

/-- Every write keeps the canonical form. -/
theorem Memory.wf_setAt {m : Memory} (n v : Byte) (h : Memory.wf m = true) :
    Memory.wf (setAt m n v) = true :=
  Memory.risesFrom_poke v h (Nat.zero_le _) n.isLt

/-- `swap` keeps the canonical form. -/
theorem Memory.wf_swapTable {m : Memory} (a b : Byte) (h : Memory.wf m = true) :
    Memory.wf (swapTable m a b) = true :=
  Memory.wf_setAt _ _ (Memory.wf_setAt _ _ h)

theorem Memory.peek_eq_none_of_lt {m : Memory} {lo k : Nat} (hm : Memory.risesFrom lo m = true)
    (hk : k < lo) : Memory.peek m k = none := by
  induction m generalizing lo with
  | nil => rfl
  | cons c m ih =>
    obtain ⟨a, w⟩ := c
    simp only [Memory.risesFrom, Bool.and_eq_true, decide_eq_true_eq] at hm
    have hne : k ≠ a := by omega
    simp only [Memory.peek, hne, if_false]
    exact ih hm.2 (by omega)

/-- Two arrays in canonical form with the same contents are the same list. -/
theorem Memory.eq_of_peek_eq {m m' : Memory} {lo : Nat} (hm : Memory.risesFrom lo m = true)
    (hm' : Memory.risesFrom lo m' = true) (h : ∀ k, Memory.peek m k = Memory.peek m' k) : m = m' := by
  induction m generalizing lo m' with
  | nil =>
    cases m' with
    | nil => rfl
    | cons c m' => simpa [Memory.peek] using h c.1
  | cons c m ih =>
    cases m' with
    | nil => simpa [Memory.peek] using h c.1
    | cons c' m' =>
      obtain ⟨a, v⟩ := c
      obtain ⟨a', v'⟩ := c'
      simp only [Memory.risesFrom, Bool.and_eq_true, decide_eq_true_eq] at hm hm'
      have key : a = a' := by
        rcases Nat.lt_trichotomy a a' with hlt | heq | hgt
        · have := h a
          simp only [Memory.peek, if_true, if_neg (Nat.ne_of_lt hlt)] at this
          rw [Memory.peek_eq_none_of_lt hm'.2 (by omega)] at this
          cases this
        · exact heq
        · have := h a'
          simp only [Memory.peek, if_true, if_neg (Nat.ne_of_lt hgt)] at this
          rw [Memory.peek_eq_none_of_lt hm.2 (by omega)] at this
          cases this
      subst key
      have hv : v = v' := by simpa [Memory.peek] using h a
      subst hv
      rw [ih hm.2 hm'.2 fun k => ?_]
      by_cases hk : k = a
      · subst hk
        rw [Memory.peek_eq_none_of_lt hm.2 (by omega), Memory.peek_eq_none_of_lt hm'.2 (by omega)]
      · simpa [Memory.peek, hk] using h k

theorem Memory.peek_eq_none_of_le {m : Memory} {lo k : Nat} (hm : Memory.risesFrom lo m = true)
    (hk : 256 ≤ k) : Memory.peek m k = none := by
  induction m generalizing lo with
  | nil => rfl
  | cons c m ih =>
    obtain ⟨a, w⟩ := c
    simp only [Memory.risesFrom, Bool.and_eq_true, decide_eq_true_eq] at hm
    have hne : k ≠ a := by omega
    simp only [Memory.peek, hne, if_false]
    exact ih hm.2

/-! ## `swap` (R13) -/

/-- `swap` reads as the old table through the transposition of the two indices. -/
theorem tableAt_swapTable (m : Memory) (a b k : Byte) :
    tableAt (swapTable m a b) k = tableAt m (Equiv.swap a b k) := by
  simp only [swapTable, tableAt_setAt, Equiv.swap_apply_def]
  by_cases hb : k = b <;> by_cases ha : k = a <;> simp_all

theorem tableAt_swapTable_left (m : Memory) (a b : Byte) :
    tableAt (swapTable m a b) a = tableAt m b := by simp [tableAt_swapTable]

theorem tableAt_swapTable_right (m : Memory) (a b : Byte) :
    tableAt (swapTable m a b) b = tableAt m a := by simp [tableAt_swapTable]

theorem tableAt_swapTable_of_ne (m : Memory) {a b k : Byte} (ha : k ≠ a) (hb : k ≠ b) :
    tableAt (swapTable m a b) k = tableAt m k := by
  rw [tableAt_swapTable, Equiv.swap_apply_of_ne_of_ne ha hb]

/-- `swap` only permutes the entries (10_state.md R21). -/
theorem tableIsPermutation_swapTable {m : Memory} (a b : Byte) (h : tableIsPermutation m) :
    tableIsPermutation (swapTable m a b) := by
  have e : tableAt (swapTable m a b) = tableAt m ∘ Equiv.swap a b :=
    funext fun k => tableAt_swapTable m a b k
  rw [tableIsPermutation, e]
  exact h.comp (Equiv.bijective _)

/-- `swap` leaves every written entry written. -/
theorem writtenBelow_setAt {m : Memory} {n : Nat} (a v : Byte) (h : writtenBelow m n) :
    writtenBelow (setAt m a v) n := by
  intro k hk
  rw [setAt, Memory.peek_poke]
  split
  · rfl
  · exact h k hk

theorem writtenBelow_swapTable {m : Memory} {n : Nat} (a b : Byte) (h : writtenBelow m n) :
    writtenBelow (swapTable m a b) n :=
  writtenBelow_setAt _ _ (writtenBelow_setAt _ _ h)

/-! ## The identity fill (40_key_schedule.md R105 step 1) -/

theorem peek_identityTable (n : Byte) : Memory.peek identityTable n.toNat = some n := by
  revert n
  decide +kernel

@[simp] theorem tableAt_identityTable (n : Byte) : tableAt identityTable n = n := by
  simp [tableAt, peek_identityTable]

theorem Memory.wf_identityTable : Memory.wf identityTable = true := by decide +kernel

theorem tableIsPermutation_identityTable : tableIsPermutation identityTable := by
  have e : tableAt identityTable = id := funext tableAt_identityTable
  rw [tableIsPermutation, e]
  exact Function.bijective_id

theorem writtenBelow_identityTable : writtenBelow identityTable 256 := by
  intro k hk
  have h := peek_identityTable (BitVec.ofNat 8 k)
  rw [BitVec.toNat_ofNat, Nat.mod_eq_of_lt hk] at h
  simp [h]

/-- `for n in 0..k-1: S[n] <- n`, write by write (R103). -/
def fillWrites (m : Memory) : Nat → Memory
  | 0 => m
  | n + 1 => setAt (fillWrites m n) (BitVec.ofNat 8 n) (BitVec.ofNat 8 n)

theorem Memory.wf_fillWrites {m : Memory} (h : Memory.wf m = true) (n : Nat) :
    Memory.wf (fillWrites m n) = true := by
  induction n with
  | zero => exact h
  | succ n ih => exact Memory.wf_setAt _ _ ih

theorem peek_fillWrites (m : Memory) {n k : Nat} (hn : n ≤ 256) (hk : k < n) :
    Memory.peek (fillWrites m n) k = some (BitVec.ofNat 8 k) := by
  induction n with
  | zero => omega
  | succ n ih =>
    have e : (BitVec.ofNat 8 n).toNat = n := by rw [BitVec.toNat_ofNat, Nat.mod_eq_of_lt (by omega)]
    rw [fillWrites, setAt, Memory.peek_poke, e]
    split
    · next h => rw [h]
    · exact ih (by omega) (by omega)

/-- The fill written as one list is what the 256 writes of R103 leave, whatever the array held. -/
theorem fillWrites_eq_identityTable {m : Memory} (h : Memory.wf m = true) {n : Nat} (hn : n = 256) :
    fillWrites m n = identityTable := by
  refine Memory.eq_of_peek_eq (Memory.wf_fillWrites h n) Memory.wf_identityTable fun k => ?_
  by_cases hk : k < 256
  · have e : (BitVec.ofNat 8 k).toNat = k := by rw [BitVec.toNat_ofNat, Nat.mod_eq_of_lt hk]
    have h2 := peek_identityTable (BitVec.ofNat 8 k)
    rw [e] at h2
    rw [peek_fillWrites m (Nat.le_of_eq hn) (hn ▸ hk), h2]
  · rw [Memory.peek_eq_none_of_le (Memory.wf_fillWrites h n) (by omega),
      Memory.peek_eq_none_of_le Memory.wf_identityTable (by omega)]

end Sys2Proof.Machine
end

