-- ==== Sys2Proof/Laws/Ops.lean ====
section
/-! SUPPORT. One lemma for each shared operation that says everything it can do, for later proofs to cite:
the PRGA step, the pass, a command's completion, a clock edge and a transaction. -/

namespace Sys2Proof.Machine

open Sys2Proof

/-! ## The PRGA step (41_keystream.md R120) -/

theorem prga_I (S : Memory) (I J : Byte) : (prga S I J).I = I + 1#8 := rfl

theorem prga_J (S : Memory) (I J : Byte) : (prga S I J).J = J + tableAt S (I + 1#8) := rfl

theorem prga_S (S : Memory) (I J : Byte) :
    (prga S I J).S = swapTable S (I + 1#8) (J + tableAt S (I + 1#8)) := rfl

/-- The keystream byte in terms of the table BEFORE the swap. -/
theorem prga_ks (S : Memory) (I J : Byte) :
    (prga S I J).ks =
      tableAt (prga S I J).S (tableAt S (prga S I J).J + tableAt S (prga S I J).I) := by
  simp only [prga, tableAt_swapTable_left, tableAt_swapTable_right]

/-! ## The pass (40_key_schedule.md R105, R106) -/

theorem passLength_eq : passLength = 256 := by unfold passLength; rfl

theorem ksaRounds_zero (K : Memory) (klen : Nat) : ksaRounds K klen 0 = (identityTable, 0x00#8) := rfl

theorem ksaRounds_succ (K : Memory) (klen n : Nat) :
    ksaRounds K klen (n + 1) =
      let S := (ksaRounds K klen n).1
      let kj' := ksaIndex S (BitVec.ofNat 8 n) (ksaRounds K klen n).2
        (keyAt K (BitVec.ofNat 8 (n % klen)))
      (swapTable S (BitVec.ofNat 8 n) kj', kj') := rfl

/-- Whatever a swap keeps and the identity fill has, the table has after every iteration. -/
theorem ksaRounds_keeps {P : Memory → Prop} (h0 : P identityTable)
    (hs : ∀ m a b, P m → P (swapTable m a b)) (K : Memory) (klen n : Nat) :
    P (ksaRounds K klen n).1 := by
  induction n with
  | zero => rw [ksaRounds_zero]; exact h0
  | succ n ih => rw [ksaRounds_succ]; exact hs _ _ _ ih

theorem tableIsPermutation_ksaTable (K : Memory) (klen : Nat) : tableIsPermutation (ksaTable K klen) :=
  ksaRounds_keeps tableIsPermutation_identityTable (fun _ a b => tableIsPermutation_swapTable a b) K klen passLength

theorem writtenBelow_ksaTable (K : Memory) (klen : Nat) : writtenBelow (ksaTable K klen) 256 :=
  ksaRounds_keeps (P := fun m => writtenBelow m 256) writtenBelow_identityTable (fun _ a b => writtenBelow_swapTable a b) K klen passLength

theorem Memory.wf_ksaTable (K : Memory) (klen : Nat) : Memory.wf (ksaTable K klen) = true :=
  ksaRounds_keeps (P := fun m => Memory.wf m = true) Memory.wf_identityTable (fun _ a b => Memory.wf_swapTable a b) K klen passLength

/-- The pass reads the key only through `K[ki mod klen]` (R107 b, c). -/
theorem ksaRounds_congr {K K' : Memory} {klen klen' n : Nat}
    (h : ∀ k, k < n → keyAt K (BitVec.ofNat 8 (k % klen)) = keyAt K' (BitVec.ofNat 8 (k % klen'))) :
    ksaRounds K klen n = ksaRounds K' klen' n := by
  induction n with
  | zero => rw [ksaRounds_zero, ksaRounds_zero]
  | succ n ih =>
    rw [ksaRounds_succ, ksaRounds_succ, ih fun k hk => h k (by omega), h n (by omega)]

/-- What one iteration of a running pass does to each field. -/
theorem State.passIteration_eq (s : State) (r : KsaRegs) :
    s.passIteration r =
      let kj' := ksaIndex s.S r.ki r.kj (keyAt s.K r.kidx)
      if r.ki = 0xFF#8 then State.endPass { s with S := swapTable s.S r.ki kj' }
      else { s with S := swapTable s.S r.ki kj', phase := .ksa ⟨r.ki + 1#8, kj', nextKidx s.KLEN r.kidx⟩ } :=
  rfl

@[simp] theorem State.passIteration_K (s : State) (r : KsaRegs) : (s.passIteration r).K = s.K := by
  rw [State.passIteration_eq]; dsimp only; split <;> rfl

@[simp] theorem State.passIteration_KLEN (s : State) (r : KsaRegs) : (s.passIteration r).KLEN = s.KLEN := by
  rw [State.passIteration_eq]; dsimp only; split <;> rfl

@[simp] theorem State.passIteration_KOVF (s : State) (r : KsaRegs) : (s.passIteration r).KOVF = s.KOVF := by
  rw [State.passIteration_eq]; dsimp only; split <;> rfl

@[simp] theorem State.passIteration_debugRead (s : State) (r : KsaRegs) :
    (s.passIteration r).debugRead = s.debugRead := by
  rw [State.passIteration_eq]; dsimp only; split <;> rfl

@[simp] theorem State.passIteration_held (s : State) (r : KsaRegs) : (s.passIteration r).held = s.held := by
  rw [State.passIteration_eq]; dsimp only; split <;> rfl

@[simp] theorem State.passIteration_inputs (s : State) (r : KsaRegs) :
    (s.passIteration r).inputs = s.inputs := by
  rw [State.passIteration_eq]; dsimp only; split <;> rfl

/-- The table after an iteration. -/
theorem State.passIteration_S (s : State) (r : KsaRegs) :
    (s.passIteration r).S = swapTable s.S r.ki (ksaIndex s.S r.ki r.kj (keyAt s.K r.kidx)) := by
  rw [State.passIteration_eq]; dsimp only; split <;> rfl

theorem State.passIterations_zero (s : State) : s.passIterations 0 = s := rfl

theorem State.passIterations_succ {s : State} {r : KsaRegs} (h : s.phase = .ksa r) (n : Nat) :
    s.passIterations (n + 1) = (s.passIteration r).passIterations n := by
  rw [State.passIterations]
  simp [h]

theorem State.passIterations_of_resp (n : Nat) {s : State} {r : Response} (h : s.phase = .resp r) :
    s.passIterations n = s := by
  cases n with
  | zero => exact State.passIterations_zero s
  | succ n => rw [State.passIterations]; simp [h]

/-- Whatever holds while a pass runs and every iteration keeps, holds after any number of them. -/
theorem State.passIterations_keeps {P : State → Prop}
    (hs : ∀ s r, s.phase = .ksa r → P s → P (s.passIteration r)) (n : Nat) (s : State) (h : P s) :
    P (s.passIterations n) := by
  induction n generalizing s with
  | zero => rw [State.passIterations_zero]; exact h
  | succ n ih =>
    rw [State.passIterations]
    split
    · next r hr => exact ih _ (hs s r hr h)
    all_goals exact h

/-! ## A command's completion (00_scope.md R14; 60_exceptions.md R166) -/

/-- The debug read-back commands respond and write nothing (R142 to R144). -/
theorem State.debugRespond_eq (s : State) (v : Byte) : ∃ d c, s.debugRespond v = s.respond d c := by
  unfold State.debugRespond
  split
  · exact ⟨_, _, rfl⟩
  · split <;> exact ⟨_, _, rfl⟩

theorem State.debugRespond_with_host (s : State) (v : Byte) (x : Option Word) (y : List ClockEdge) :
    State.debugRespond { s with held := x, inputs := y } v =
      { s.debugRespond v with held := x, inputs := y } := by
  simp only [State.debugRespond]
  split
  · rfl
  · split <;> rfl

/-- EVERY command answers a next state in which its response waits. -/
theorem exec_next (i : Instr) (s : State) : ∃ t r, exec i s = .next t ∧ t.phase = .resp r := by
  cases i with
  | kpush b => simp only [exec, execKpush]; split <;> exact ⟨_, _, rfl, rfl⟩
  | init => simp only [exec, execInit]; split <;> exact ⟨_, _, rfl, rfl⟩
  | xform d => simp only [exec, execXform]; split <;> exact ⟨_, _, rfl, rfl⟩
  | rdi => obtain ⟨d, c, h⟩ := s.debugRespond_eq s.I; exact ⟨_, _, rfl, by rw [h]; rfl⟩
  | rdj => obtain ⟨d, c, h⟩ := s.debugRespond_eq s.J; exact ⟨_, _, rfl, by rw [h]; rfl⟩
  | rds n => obtain ⟨d, c, h⟩ := s.debugRespond_eq (s.tableEntry n); exact ⟨_, _, rfl, by rw [h]; rfl⟩
  | nop => exact ⟨_, _, rfl, rfl⟩
  | kclr => exact ⟨_, _, rfl, rfl⟩
  | rdstat => exact ⟨_, _, rfl, rfl⟩
  | rdklen => exact ⟨_, _, rfl, rfl⟩

theorem State.complete_next (w : Word) (s : State) :
    ∃ t r, s.complete w = .next t ∧ t.phase = .resp r := by
  unfold State.complete
  split
  · exact exec_next _ s
  · exact ⟨_, _, rfl, rfl⟩

theorem execInit_of_invalid {s : State} (h : s.keyInvalid = true) :
    execInit s = .next (s.raiseError .invalidKey) := by simp [execInit, h]

theorem execInit_of_valid {s : State} (h : s.keyInvalid = false) :
    execInit s = .next (State.endPass { s with S := ksaTable s.K s.KLEN.toNat }) := by
  simp [execInit, h]

theorem execXform_of_initd (d : Byte) {s : State} (h : s.INITD = true) :
    execXform d s = .next (State.respond
      { s with S := (prga s.S s.I s.J).S, I := (prga s.S s.I s.J).I, J := (prga s.S s.I s.J).J }
      (d ^^^ (prga s.S s.I s.J).ks) .ok) := by
  simp [execXform, h, xorDatapath]

theorem execXform_of_not_initd (d : Byte) {s : State} (h : s.INITD = false) :
    execXform d s = .next (s.raiseError .notInit) := by simp [execXform, h]

/-- EVERYTHING a command can do: respond and write nothing, or what KCLR, KPUSH, INIT or XFORM writes
(10_state.md R37). -/
theorem exec_cases {i : Instr} {s t : State} (h : exec i s = .next t) :
    (∃ d c, t = s.respond d c)
    ∨ (i = .kclr ∧ t = State.respond { s with KLEN := 0#9, KOVF := false } 0x00#8 .ok)
    ∨ (∃ b, i = .kpush b ∧ s.KLEN < 256#9 ∧
        t = State.respond { s with K := setAt s.K s.keySlot b, KLEN := s.KLEN + 1#9 } 0x00#8 .ok)
    ∨ (∃ b, i = .kpush b ∧ ¬ s.KLEN < 256#9 ∧ t = State.respond { s with KOVF := true } 0x00#8 .ok)
    ∨ (i = .init ∧ s.keyInvalid = false ∧ t = State.endPass { s with S := ksaTable s.K s.KLEN.toNat })
    ∨ (∃ d, i = .xform d ∧ s.INITD = true ∧
        t = State.respond
          { s with S := (prga s.S s.I s.J).S, I := (prga s.S s.I s.J).I, J := (prga s.S s.I s.J).J }
          (d ^^^ (prga s.S s.I s.J).ks) .ok) := by
  cases i with
  | nop => cases h; exact .inl ⟨_, _, rfl⟩
  | kclr => cases h; exact .inr (.inl ⟨rfl, rfl⟩)
  | kpush b =>
    simp only [exec, execKpush] at h
    split at h
    · next hlt => cases h; exact .inr (.inr (.inl ⟨b, rfl, hlt, rfl⟩))
    · next hlt => cases h; exact .inr (.inr (.inr (.inl ⟨b, rfl, hlt, rfl⟩)))
  | init =>
    by_cases hk : s.keyInvalid = true
    · rw [exec, execInit_of_invalid hk] at h
      cases h
      exact .inl ⟨_, _, rfl⟩
    · have hk : s.keyInvalid = false := by simpa using hk
      rw [exec, execInit_of_valid hk] at h
      cases h
      exact .inr (.inr (.inr (.inr (.inl ⟨rfl, hk, rfl⟩))))
  | xform d =>
    by_cases hi : s.INITD = true
    · rw [exec, execXform_of_initd d hi] at h
      cases h
      exact .inr (.inr (.inr (.inr (.inr ⟨d, rfl, hi, rfl⟩))))
    · rw [exec, execXform_of_not_initd d (by simpa using hi)] at h
      cases h
      exact .inl ⟨_, _, rfl⟩
  | rdstat => cases h; exact .inl ⟨_, _, rfl⟩
  | rdklen => cases h; exact .inl ⟨_, _, rfl⟩
  | rdi => cases h; exact .inl (s.debugRespond_eq _)
  | rdj => cases h; exact .inl (s.debugRespond_eq _)
  | rds n => cases h; exact .inl (s.debugRespond_eq _)

/-- What a completed command can have written: nothing but these fields. -/
theorem exec_frame {i : Instr} {s t : State} (h : exec i s = .next t) :
    t.debugRead = s.debugRead ∧ t.held = s.held ∧ t.inputs = s.inputs := by
  rcases exec_cases h with ⟨d, c, rfl⟩ | ⟨-, rfl⟩ | ⟨b, -, -, rfl⟩ | ⟨b, -, -, rfl⟩ | ⟨-, -, rfl⟩ | ⟨d, -, -, rfl⟩ <;>
    exact ⟨rfl, rfl, rfl⟩

theorem State.complete_frame {w : Word} {s t : State} (h : s.complete w = .next t) :
    t.debugRead = s.debugRead ∧ t.held = s.held ∧ t.inputs = s.inputs := by
  unfold State.complete at h
  split at h
  · exact exec_frame h
  · cases h; exact ⟨rfl, rfl, rfl⟩

/-- A command does not read what the host drives: it does the same with another `held` and other edges to
come. -/
theorem exec_with_host {i : Instr} {s t : State} (x : Option Word) (y : List ClockEdge) (h : exec i s = .next t) :
    exec i { s with held := x, inputs := y } = .next { t with held := x, inputs := y } := by
  cases i with
  | kpush b =>
    simp only [exec, execKpush] at h ⊢
    split at h
    · next hlt => cases h; rw [if_pos hlt]; rfl
    · next hlt => cases h; rw [if_neg hlt]; rfl
  | init =>
    cases hk : s.keyInvalid with
    | true =>
      rw [exec, execInit_of_invalid hk] at h
      cases h
      exact execInit_of_invalid hk
    | false =>
      rw [exec, execInit_of_valid hk] at h
      cases h
      exact execInit_of_valid hk
  | xform d =>
    simp only [exec, execXform] at h ⊢
    split at h
    · next hi => cases h; rw [if_pos hi]; rfl
    · next hi => cases h; rw [if_neg hi]; rfl
  | rdi => cases h; exact congrArg Host.Outcome.next (State.debugRespond_with_host s s.I x y)
  | rdj => cases h; exact congrArg Host.Outcome.next (State.debugRespond_with_host s s.J x y)
  | rds n => cases h; exact congrArg Host.Outcome.next (State.debugRespond_with_host s (s.tableEntry n) x y)
  | nop => cases h; rfl
  | kclr => cases h; rfl
  | rdstat => cases h; rfl
  | rdklen => cases h; rfl

theorem State.complete_with_host {w : Word} {s t : State} (x : Option Word) (y : List ClockEdge)
    (h : s.complete w = .next t) :
    State.complete w { s with held := x, inputs := y } = .next { t with held := x, inputs := y } := by
  unfold State.complete at h ⊢
  split at h
  · next i hi => simp only [hi]; exact exec_with_host x y h
  · next i hi => cases h; simp only [hi]; rfl

/-! ## A clock edge (30_encoding.md R72 to R76) -/

/-- EVERYTHING an advance can do to a state. -/
theorem State.advance_cases {p : Pace} {s : State} {o : Host.Outcome State Fault Refusal}
    (h : s.advance p = o) :
    o = .next s
    ∨ (∃ w, s.phase = .exec w ∧ s.startsPass w = true ∧ o = .next s.beginPass)
    ∨ (∃ w t, s.phase = .exec w ∧ s.complete w = .next t ∧ o = .next t)
    ∨ (∃ r, s.phase = .ksa r ∧ o = .next (s.passIteration r))
    ∨ (∃ r, s.phase = .ksa r ∧ o = .next (s.passIterations passLength)) := by
  subst h
  unfold State.advance
  split
  · next w hw =>
    split
    · next hp => exact .inr (.inl ⟨w, hw, hp, rfl⟩)
    · obtain ⟨t, r, ht, -⟩ := State.complete_next w s
      exact .inr (.inr (.inl ⟨w, t, hw, ht, ht⟩))
  · next w hw =>
    obtain ⟨t, r, ht, -⟩ := State.complete_next w s
    exact .inr (.inr (.inl ⟨w, t, hw, ht, ht⟩))
  · next r hr => exact .inr (.inr (.inr (.inl ⟨r, hr, rfl⟩)))
  · next r hr => exact .inr (.inr (.inr (.inr ⟨r, hr, rfl⟩)))
  all_goals exact .inl rfl

/-- EVERYTHING a clock edge can do. -/
theorem State.clockEdge_cases {e : ClockEdge} {s : State} {o : Host.Outcome State Fault Refusal}
    (h : s.clockEdge e = o) :
    (s.handshakeBroken e = true ∧ o = .refused .handshakeBroken)
    ∨ (e.rst = true ∧ s.handshakeBroken e = false ∧ o = .next { s.resetEdge with held := e.presented })
    ∨ (e.rst = false ∧ s.handshakeBroken e = false ∧
        ((s.phase = .idle ∧ e.cmdValid = false ∧ o = .next s)
        ∨ (s.phase = .idle ∧ e.cmdValid = true ∧ (s.accept e.cmdWord).advance e.pace = o)
        ∨ (s.inFlight ∧ State.advance e.pace { s with held := e.presented } = o)
        ∨ (∃ r, s.phase = .resp r ∧
            o = .next { s with held := e.presented, phase := if e.rspReady then .idle else .resp r }))) := by
  subst h
  unfold State.clockEdge
  cases hb : s.handshakeBroken e with
  | true => simp
  | false =>
    cases hr : e.rst with
    | true => simp
    | false =>
      refine .inr (.inr ⟨rfl, rfl, ?_⟩)
      simp only [Bool.false_eq_true, if_false]
      cases hp : s.phase with
      | idle =>
        cases hv : e.cmdValid with
        | true => exact .inr (.inl ⟨rfl, rfl, by simp⟩)
        | false => exact .inl ⟨rfl, rfl, by simp⟩
      | exec w => exact .inr (.inr (.inl ⟨.inl ⟨w, hp⟩, rfl⟩))
      | ksa r => exact .inr (.inr (.inl ⟨.inr ⟨r, hp⟩, rfl⟩))
      | resp r =>
        refine .inr (.inr (.inr ⟨r, rfl, ?_⟩))
        cases e.rspReady with
        | true => rfl
        | false => simp [← hp]

theorem State.handshakeBroken_eq_false {s : State} {e : ClockEdge}
    (h : s.held = none ∨ s.held = e.presented) : s.handshakeBroken e = false := by
  unfold State.handshakeBroken
  rcases h with h | h
  · rw [h]
  · split <;> simp_all

theorem State.clockEdge_reset {s : State} {e : ClockEdge} (hr : e.rst = true)
    (hb : s.handshakeBroken e = false) :
    s.clockEdge e = .next { s.resetEdge with held := e.presented } := by
  simp [State.clockEdge, hr, hb]

/-- A broken handshake is refused whatever the edge is. -/
theorem State.clockEdge_broken {s : State} {e : ClockEdge} (hb : s.handshakeBroken e = true) :
    s.clockEdge e = .refused .handshakeBroken := by
  simp [State.clockEdge, hb]

theorem State.clockEdge_idle {s : State} {e : ClockEdge} (hr : e.rst = false)
    (hb : s.handshakeBroken e = false) (hp : s.phase = .idle) :
    s.clockEdge e = if e.cmdValid then (s.accept e.cmdWord).advance e.pace else .next s := by
  unfold State.clockEdge
  rw [hr, hb, hp]
  rfl

theorem State.clockEdge_exec {s : State} {e : ClockEdge} {w : Word} (hr : e.rst = false)
    (hb : s.handshakeBroken e = false) (hp : s.phase = .exec w) :
    s.clockEdge e = State.advance e.pace { s with held := e.presented } := by
  unfold State.clockEdge
  rw [hr, hb, hp]
  rfl

theorem State.clockEdge_ksa {s : State} {e : ClockEdge} {r : KsaRegs} (hr : e.rst = false)
    (hb : s.handshakeBroken e = false) (hp : s.phase = .ksa r) :
    s.clockEdge e = State.advance e.pace { s with held := e.presented } := by
  unfold State.clockEdge
  rw [hr, hb, hp]
  rfl

theorem State.clockEdge_resp {s : State} {e : ClockEdge} {r : Response} (hr : e.rst = false)
    (hb : s.handshakeBroken e = false) (hp : s.phase = .resp r) :
    s.clockEdge e = .next { s with held := e.presented, phase := if e.rspReady then .idle else .resp r } := by
  unfold State.clockEdge
  rw [hr, hb, hp]
  cases e.rspReady with
  | true => rfl
  | false => simp [← hp]

theorem State.advance_exec_finish {s : State} {w : Word} (hp : s.phase = .exec w) :
    s.advance .finish = s.complete w := by simp [State.advance, hp]

theorem State.advance_exec_work {s : State} {w : Word} (hp : s.phase = .exec w) :
    s.advance .work = if s.startsPass w then .next s.beginPass else s.complete w := by
  simp [State.advance, hp]

theorem State.advance_ksa_work {s : State} {r : KsaRegs} (hp : s.phase = .ksa r) :
    s.advance .work = .next (s.passIteration r) := by simp [State.advance, hp]

theorem State.advance_ksa_finish {s : State} {r : KsaRegs} (hp : s.phase = .ksa r) :
    s.advance .finish = .next (s.passIterations passLength) := by simp [State.advance, hp]

theorem State.advance_wait (s : State) : s.advance .wait = .next s := by
  unfold State.advance
  split <;> simp_all

/-- A step is the next edge of the input list, or nothing (60_exceptions.md R175). -/
theorem step_of_inputs {s : State} {e : ClockEdge} {rest : List ClockEdge} (h : s.inputs = e :: rest) :
    step s = State.clockEdge e { s with inputs := rest } := by simp [step, h]

theorem step_of_no_inputs {s : State} (h : s.inputs = []) : step s = .next s := by simp [step, h]

theorem State.passIterations_frame (n : Nat) (s : State) :
    (s.passIterations n).debugRead = s.debugRead ∧ (s.passIterations n).held = s.held ∧
      (s.passIterations n).inputs = s.inputs :=
  State.passIterations_keeps
    (P := fun t => t.debugRead = s.debugRead ∧ t.held = s.held ∧ t.inputs = s.inputs)
    (fun t r _ h => by simpa using h) n s ⟨rfl, rfl, rfl⟩

/-- What an advance leaves alone. -/
theorem State.advance_frame {p : Pace} {s t : State} (h : s.advance p = .next t) :
    t.debugRead = s.debugRead ∧ t.held = s.held ∧ t.inputs = s.inputs := by
  rcases State.advance_cases h with
    h1 | ⟨w, -, -, h1⟩ | ⟨w, u, -, hc, h1⟩ | ⟨r, -, h1⟩ | ⟨r, -, h1⟩ <;> cases h1
  · exact ⟨rfl, rfl, rfl⟩
  · exact ⟨rfl, rfl, rfl⟩
  · exact State.complete_frame hc
  · simp
  · exact State.passIterations_frame _ s

/-- A clock edge leaves the edges to come, and the build, alone. -/
theorem State.clockEdge_frame {e : ClockEdge} {s t : State} (h : s.clockEdge e = .next t) :
    t.debugRead = s.debugRead ∧ t.inputs = s.inputs := by
  rcases State.clockEdge_cases h with
    ⟨-, h1⟩ | ⟨-, -, h1⟩ | ⟨-, -, ⟨-, -, h1⟩ | ⟨-, -, h1⟩ | ⟨-, h1⟩ | ⟨r, -, h1⟩⟩
  · cases h1
  · cases h1; exact ⟨rfl, rfl⟩
  · cases h1; exact ⟨rfl, rfl⟩
  · exact ⟨(State.advance_frame h1).1, (State.advance_frame h1).2.2⟩
  · exact ⟨(State.advance_frame h1).1, (State.advance_frame h1).2.2⟩
  · cases h1; exact ⟨rfl, rfl⟩

/-- A step consumes the edge it runs. -/
theorem step_inputs {s t : State} {e : ClockEdge} {rest : List ClockEdge} (hi : s.inputs = e :: rest)
    (h : step s = .next t) : t.inputs = rest := by
  rw [step_of_inputs hi] at h
  exact (State.clockEdge_frame h).2

/-- PACKAGED ONCE: a property of states that each piece of a step keeps, a step keeps. -/
theorem step_keeps {P : State → Prop} (hin : ∀ s x, P s → P { s with inputs := x })
    (hheld : ∀ s x, P s → P { s with held := x })
    (hphase : ∀ s p, (∀ r, p ≠ .ksa r) → P s → P { s with phase := p })
    (hreset : ∀ s, P s → P s.resetEdge) (hexec : ∀ i s t, P s → exec i s = .next t → P t)
    (hbegin : ∀ s, s.keyInvalid = false → P s → P s.beginPass)
    (hiter : ∀ s r, s.phase = .ksa r → P s → P (s.passIteration r)) {s t : State} (h : P s)
    (he : step s = .next t) : P t := by
  have hcomp : ∀ w s t, P s → s.complete w = .next t → P t := by
    intro w s t h he
    unfold State.complete at he
    split at he
    · exact hexec _ _ _ h he
    · cases he
      exact hphase _ _ (by intro r; simp) h
  have hadv : ∀ p s t, P s → s.advance p = .next t → P t := by
    intro p s t h he
    rcases State.advance_cases he with
      h1 | ⟨w, -, hs, h1⟩ | ⟨w, u, -, hc, h1⟩ | ⟨r, hp, h1⟩ | ⟨r, hp, h1⟩ <;> cases h1
    · exact h
    · exact hbegin _ (by simp only [State.startsPass, Bool.and_eq_true, Bool.not_eq_true'] at hs; exact hs.2) h
    · exact hcomp _ _ _ h hc
    · exact hiter _ _ hp h
    · exact State.passIterations_keeps hiter _ _ h
  cases hi : s.inputs with
  | nil =>
    rw [step_of_no_inputs hi] at he
    cases he
    exact h
  | cons e rest =>
    rw [step_of_inputs hi] at he
    have h := hin s rest h
    rcases State.clockEdge_cases he with
      ⟨-, h1⟩ | ⟨-, -, h1⟩ | ⟨-, -, ⟨-, -, h1⟩ | ⟨-, -, h1⟩ | ⟨-, h1⟩ | ⟨r, -, h1⟩⟩
    · cases h1
    · cases h1
      exact hheld _ _ (hreset _ h)
    · cases h1
      exact h
    · exact hadv _ _ _ (hheld _ _ (hphase _ _ (by intro r; simp) h)) h1
    · exact hadv _ _ _ (hheld _ _ h) h1
    · cases h1
      exact hheld _ _ (hphase { s with inputs := rest } (if e.rspReady then .idle else .resp r)
        (by intro q; split <;> simp) h)

/-! ## A transaction (30_encoding.md R72, R74, R75) -/

/-- What a transaction on a ready engine does: the command completes, its response is taken, and the
engine is ready again. -/
theorem transact_of_ready {s : State} (h : s.ready) (w : Word) :
    ∃ t r, State.complete w { s with phase := .exec w, inputs := [ClockEdge.take] } = .next t ∧
      t.phase = .resp r ∧ transact w s = some ({ t with phase := .idle, inputs := [] }, r) := by
  obtain ⟨hp, hh⟩ := h
  obtain ⟨t, r, ht, hr⟩ :=
    State.complete_next w { s with phase := .exec w, inputs := [ClockEdge.take] }
  obtain ⟨hd, hheld, hin⟩ := State.complete_frame ht
  refine ⟨t, r, ht, hr, ?_⟩
  have h1 : step { s with inputs := [ClockEdge.command w, ClockEdge.take] } = .next t := by
    rw [step_of_inputs rfl, ← ht]
    simp [State.clockEdge, State.handshakeBroken, hp, hh, ClockEdge.command, State.accept, State.advance]
  have h2 : step t = .next { t with phase := .idle, inputs := [] } := by
    rw [step_of_inputs hin]
    simp [State.clockEdge, State.handshakeBroken, hheld, hh, hr, ClockEdge.take, ClockEdge.presented,
      State.takeResponse]
  unfold transact
  simp only [h1, h2, hr]

end Sys2Proof.Machine
end

