-- ==== Sys2Proof/Laws/Pass.lean ====
section
/-! SUPPORT. A running pass is the source's loop, iteration by iteration (spec/40_key_schedule.md R105,
R106, R109). -/

namespace Sys2Proof.Machine

open Sys2Proof

theorem State.klen_pos {s : State} (h : s.keyInvalid = false) : 0 < s.KLEN.toNat := by
  simp only [State.keyInvalid, Bool.or_eq_false_iff, decide_eq_false_iff_not] at h
  rcases Nat.eq_zero_or_pos s.KLEN.toNat with h0 | h0
  · exact absurd (BitVec.eq_of_toNat_eq (by simpa using h0)) h.1
  · exact h0

/-- "`kidx = ki mod KLEN` holds at every iteration" (R106): the counter keeps step. -/
theorem nextKidx_toNat {KLEN : BitVec 9} {kidx : Byte} {ki : Nat} (h0 : 0 < KLEN.toNat)
    (h : kidx.toNat = ki % KLEN.toNat) (hki : ki < 255) :
    (nextKidx KLEN kidx).toNat = (ki + 1) % KLEN.toNat := by
  have hlt := Nat.mod_lt ki h0
  have hk := kidx.isLt
  have hK := KLEN.isLt
  have hsucc : (ki + 1) % KLEN.toNat = (kidx.toNat + 1) % KLEN.toNat := by
    rw [h, Nat.mod_add_mod]
  have heq : kidx.setWidth 9 + 1#9 = KLEN ↔ kidx.toNat + 1 = KLEN.toNat := by
    constructor
    · intro e
      have := congrArg BitVec.toNat e
      simp only [BitVec.toNat_add, BitVec.toNat_setWidth, BitVec.toNat_ofNat] at this
      omega
    · intro e
      apply BitVec.eq_of_toNat_eq
      simp only [BitVec.toNat_add, BitVec.toNat_setWidth, BitVec.toNat_ofNat]
      omega
  rw [hsucc]
  unfold nextKidx
  by_cases e : kidx.setWidth 9 + 1#9 = KLEN
  · rw [if_pos e, heq.1 e, Nat.mod_self]; rfl
  · rw [if_neg e]
    have hne : kidx.toNat + 1 ≠ KLEN.toNat := fun e' => e (heq.2 e')
    have hle := Nat.mod_le ki KLEN.toNat
    rw [Nat.mod_eq_of_lt (by omega : kidx.toNat + 1 < KLEN.toNat), BitVec.toNat_add]
    simp only [BitVec.toNat_ofNat]
    omega

theorem passInv_beginPass {s : State} (hk : s.keyInvalid = false) :
    PassInv s.beginPass ⟨0x00#8, 0x00#8, 0x00#8⟩ where
  notInitialised := rfl
  keyValid := hk
  keyIndex := by simp
  rounds := rfl

/-- One iteration of a running pass is one iteration of R105's loop. -/
theorem passIteration_rounds {s : State} {r : KsaRegs} (h : PassInv s r) :
    ksaRounds s.K s.KLEN.toNat (r.ki.toNat + 1) =
      (swapTable s.S r.ki (ksaIndex s.S r.ki r.kj (keyAt s.K r.kidx)),
        ksaIndex s.S r.ki r.kj (keyAt s.K r.kidx)) := by
  rw [ksaRounds_succ, h.rounds, ← h.keyIndex]
  simp only [BitVec.ofNat_toNat, BitVec.setWidth_eq]

/-- An iteration before the last keeps what holds while a pass runs. -/
theorem passInv_passIteration {s : State} {r : KsaRegs} (h : PassInv s r) (hki : r.ki ≠ 0xFF#8) :
    ∃ r', (s.passIteration r).phase = .ksa r' ∧ r'.ki = r.ki + 1#8 ∧ r'.ki.toNat = r.ki.toNat + 1 ∧
      PassInv (s.passIteration r) r' := by
  have hlt : r.ki.toNat < 255 := by
    have h1 := r.ki.isLt
    have h2 : r.ki.toNat ≠ 255 := fun e => hki (BitVec.eq_of_toNat_eq e)
    omega
  have hs : (r.ki + 1#8).toNat = r.ki.toNat + 1 := by
    rw [BitVec.toNat_add]
    simp only [BitVec.toNat_ofNat]
    omega
  rw [State.passIteration_eq]
  simp only [if_neg hki]
  refine ⟨_, rfl, rfl, hs, ⟨h.notInitialised, h.keyValid, ?_, ?_⟩⟩
  · rw [hs]
    exact nextKidx_toNat (State.klen_pos h.keyValid) h.keyIndex (by omega)
  · rw [hs]
    exact passIteration_rounds h

/-- The last iteration ends the pass with the table of the whole loop. -/
theorem passIteration_last {s : State} {r : KsaRegs} (h : PassInv s r) (hki : r.ki = 0xFF#8) :
    s.passIteration r = State.endPass { s with S := ksaTable s.K s.KLEN.toNat } := by
  have hr := passIteration_rounds h
  have e : ksaTable s.K s.KLEN.toNat = swapTable s.S r.ki (ksaIndex s.S r.ki r.kj (keyAt s.K r.kidx)) := by
    have h256 : r.ki.toNat + 1 = passLength := by rw [passLength_eq, hki]; rfl
    rw [ksaTable, ← h256, hr]
  rw [State.passIteration_eq]
  simp only [if_pos hki, e]

/-- Enough iterations end the pass with the table of the whole loop. -/
theorem passIterations_end {n : Nat} {s : State} {r : KsaRegs} (hp : s.phase = .ksa r) (h : PassInv s r)
    (hn : 256 ≤ n + r.ki.toNat) :
    s.passIterations n = State.endPass { s with S := ksaTable s.K s.KLEN.toNat } := by
  induction n generalizing s r with
  | zero => have := r.ki.isLt; omega
  | succ n ih =>
    rw [State.passIterations_succ hp]
    by_cases hki : r.ki = 0xFF#8
    · rw [passIteration_last h hki]
      exact State.passIterations_of_resp n rfl
    · obtain ⟨r', hp', -, hki', h'⟩ := passInv_passIteration h hki
      rw [ih hp' h' (by omega)]
      simp only [State.passIteration_K, State.passIteration_KLEN]
      rw [State.passIteration_eq]
      simp only [if_neg hki]
      rfl

end Sys2Proof.Machine
end

