-- ==== Sys2Proof/Laws/PerInstr.lean ====
section
/-! SUPPORT. Laws of every command as syntax, one lemma per constructor (spec/30_encoding.md R77, R81). -/

namespace Sys2Proof.Laws.FormatC

open Sys2Proof

/-- The word of a command has the command's opcode in bits 15:8 and its operand, or 0x00, in bits 7:0. -/
def Statement (i : Instr) : Prop :=
  Word.op (encode i) = i.opcode ∧ Word.imm8 (encode i) = i.operand.getD 0x00#8

theorem op_append (a b : Byte) : Word.op (a ++ b) = a := by
  apply BitVec.eq_of_getLsbD_eq
  intro n hn
  have h : (a ++ b : Word).getLsbD (8 + n) = _ := BitVec.getLsbD_append (x := a) (y := b) (i := 8 + n)
  simp [Word.op, h, hn]

theorem imm8_append (a b : Byte) : Word.imm8 (a ++ b) = b := by
  apply BitVec.eq_of_getLsbD_eq
  intro n hn
  have h : (a ++ b : Word).getLsbD n = _ := BitVec.getLsbD_append (x := a) (y := b) (i := n)
  simp [Word.imm8, h, hn]

theorem append_op_imm8 (w : Word) : Word.op w ++ Word.imm8 w = w := by
  apply BitVec.eq_of_getLsbD_eq
  intro n hn
  simp only [Word.op, Word.imm8, BitVec.getLsbD_append, BitVec.getLsbD_extractLsb']
  by_cases h : n < 8
  · simp [h]
  · have : n - 8 < 8 := by omega
    have e : 8 + (n - 8) = n := by omega
    simp [h, this, e]

theorem of_encode (i : Instr) : Statement i := ⟨op_append _ _, imm8_append _ _⟩

theorem nop : Statement .nop := of_encode _
theorem kclr : Statement .kclr := of_encode _
theorem kpush (b : Byte) : Statement (.kpush b) := of_encode _
theorem init : Statement .init := of_encode _
theorem xform (d : Byte) : Statement (.xform d) := of_encode _
theorem rdstat : Statement .rdstat := of_encode _
theorem rdklen : Statement .rdklen := of_encode _
theorem rdi : Statement .rdi := of_encode _
theorem rdj : Statement .rdj := of_encode _
theorem rds (n : Byte) : Statement (.rds n) := of_encode _

end Sys2Proof.Laws.FormatC
end

