-- ==== Sys2Proof/Laws/Ports.lean ====
section
/-! SUPPORT. The bits of the `status` port (spec/10_state.md R30). -/

namespace Sys2Proof.Machine

open Sys2Proof

/-- BUSY and INITD on the port are the state's own, in every phase. -/
theorem State.statusPort_low (s : State) :
    s.statusPort.getLsbD 0 = s.INITD ∧ s.statusPort.getLsbD 1 = s.busy := by
  unfold State.statusPort
  split
  · exact ⟨s.statusReg_initd, s.statusReg_busy⟩
  · exact ⟨s.statusReg_initd, s.statusReg_busy⟩
  all_goals
    generalize Config.drawStatus s.inputs.length = d, s.INITD = a, s.busy = b
    revert d a b
    decide

end Sys2Proof.Machine
end

