-- ==== Sys2Proof/Tests/Slice0.lean ====
section
/-! SUPPORT. The model's own tests. Expected values come from spec/95_test_vectors.md (named V<n>, P<n>) or
from the rule named beside them; each runs one step or one command on a small state. Then, for every
statement of Certificates/Slice0/Obligations.lean that has hypotheses, a theorem `witness_<its name>`
that shows states and operands meeting them, each clause at the ends of its range. -/

namespace Sys2Proof.Tests

open Sys2Proof Sys2Proof.Machine

/-! ## Small states -/

/-- After `KPUSH 'K'; KPUSH 'e'; KPUSH 'y'`. -/
def keyed : State := { State.reset with K := [(0, 0x4B#8), (1, 0x65#8), (2, 0x79#8)], KLEN := 3#9 }

/-- A key of `n` bytes, with the key bytes unwritten. -/
def keyLength (n : BitVec 9) : State := { State.reset with KLEN := n }

/-- More than 256 bytes were pushed. -/
def overLong : State := { State.reset with KLEN := 256#9, KOVF := true }

/-- An initialised engine with the table `S` at the position `I`, `J`. -/
def running (S : Memory) (I J : Byte) : State := { State.reset with S := S, I := I, J := J, INITD := true }

/-- The entries that the first XFORM under "Key" reads (V20, row 1). -/
def v20 : State := running [(0x01, 0x33#8), (0x33, 0x4E#8), (0x81, 0xEB#8)] 0x00#8 0x00#8

/-- A build without the debug read-back commands. -/
def noDebug (s : State) : State := { s with debugRead := false }

/-- The state a step or a command answers. -/
def after (o : Host.Outcome State Fault Refusal) : Option State :=
  match o with
  | .next t => some t
  | .fault _ => none
  | .refused _ => none

/-- The response that waits in a state. -/
def waiting (s : State) : Option Response := s.rspPort false

/-- The response of a command. -/
def answer (o : Host.Outcome State Fault Refusal) : Option Response := (after o).bind waiting

/-- An edge on which the host presents nothing and does not take a response. -/
def quiet (p : Pace) : ClockEdge :=
  { rst := false, cmdValid := false, cmdWord := 0x0000#16, rspReady := false, pace := p }

/-- An edge on which the host takes a response and presents `w`. -/
def takeAndPresent (w : Word) : ClockEdge :=
  { rst := false, cmdValid := true, cmdWord := w, rspReady := true, pace := .wait }

/-- An edge on which the host presents `w`. -/
def present (w : Word) (p : Pace) : ClockEdge :=
  { rst := false, cmdValid := true, cmdWord := w, rspReady := false, pace := p }

/-- A reset edge. -/
def resetNow : ClockEdge :=
  { rst := true, cmdValid := false, cmdWord := 0x0000#16, rspReady := false, pace := .wait }

/-- A reset edge on which the host presents `w`. -/
def resetPresenting (w : Word) : ClockEdge :=
  { rst := true, cmdValid := true, cmdWord := w, rspReady := false, pace := .wait }

/-! ## WellFormed: what a build does not have is refused (R9, R82) -/

theorem test_wellFormed_rdi : Instr.wellFormed false .rdi = false := by decide
theorem test_wellFormed_rdj : Instr.wellFormed false .rdj = false := by decide
theorem test_wellFormed_rds : Instr.wellFormed false (.rds 0x00#8) = false := by decide
theorem test_wellFormed_rest :
    Instr.wellFormed true (.rds 0xFF#8) = true ∧ Instr.wellFormed false (.xform 0xFF#8) = true := by decide

/-! ## Decode: words written out from R81's patterns -/

theorem test_decode_nop : decode true 0b0000000011111111#16 = .command .nop := by decide
theorem test_decode_kclr : decode true 0b0000000101011010#16 = .command .kclr := by decide
theorem test_decode_kpush : decode true 0b0000001001001011#16 = .command (.kpush 0x4B#8) := by decide
theorem test_decode_init : decode true 0b0000001100000000#16 = .command .init := by decide
theorem test_decode_xform : decode true 0b0000010001010000#16 = .command (.xform 0x50#8) := by decide
theorem test_decode_rdstat : decode true 0b0001000000000000#16 = .command .rdstat := by decide
theorem test_decode_rdklen : decode true 0b0001000100000000#16 = .command .rdklen := by decide
theorem test_decode_rdi : decode true 0b0001001000000000#16 = .command .rdi := by decide
theorem test_decode_rdj : decode true 0b0001001100000000#16 = .command .rdj := by decide
theorem test_decode_rds : decode true 0b0001010011011110#16 = .command (.rds 0xDE#8) := by decide

/-- V40, and 0x12 to 0x14 in a build without them. -/
theorem test_decode_reserved :
    decode true 0x0500#16 = .reserved 0x05#8 ∧ decode true 0x0F00#16 = .reserved 0x0F#8 ∧
    decode true 0x1500#16 = .reserved 0x15#8 ∧ decode true 0xFFFF#16 = .reserved 0xFF#8 ∧
    decode false 0x1200#16 = .reserved 0x12#8 ∧ decode false 0x14FF#16 = .reserved 0x14#8 := by decide

/-- The words of P1 and of the canonical words of each rule. -/
theorem test_encode :
    encode .nop = 0x0000#16 ∧ encode .kclr = 0x0100#16 ∧ encode (.kpush 0x4B#8) = 0x024B#16 ∧
    encode .init = 0x0300#16 ∧ encode (.xform 0x50#8) = 0x0450#16 ∧ encode .rdstat = 0x1000#16 ∧
    encode .rdklen = 0x1100#16 ∧ encode .rdi = 0x1200#16 ∧ encode .rdj = 0x1300#16 ∧
    encode (.rds 0xDE#8) = 0x14DE#16 := by decide

theorem test_decodeTableWord :
    decodeTableWord 16 0x04FF = some (.xform 0xFF#8) ∧ decodeTableWord 16 0x0600 = none := by decide

/-! ## The assembler (R85, R86) -/

theorem test_asm_kpush :
    assembleLine ['K', 'p', 'u', 's', 'h', ' ', '0', 'x', '4', 'B', ' ', ';', 'x'] = .ok [0x024B#16] := by decide
theorem test_asm_character :
    assembleLine ['K', 'P', 'U', 'S', 'H', ' ', Char.ofNat 39, 'W', Char.ofNat 39] = .ok [0x0257#16] := by decide
theorem test_asm_ldkey :
    assembleLine ['L', 'D', 'K', 'E', 'Y', ' ', Char.ofNat 34, 'K', 'e', Char.ofNat 34]
      = .ok [0x0100#16, 0x024B#16, 0x0265#16, 0x0300#16] := by decide
theorem test_asm_xbuf :
    assembleLine ['X', 'B', 'U', 'F', ' ', '1', ',', ' ', '2'] = .ok [0x0401#16, 0x0402#16] := by decide
theorem test_asm_ks : assembleLine ['k', 's'] = .ok [0x0400#16] := by decide
theorem test_asm_raw :
    assembleLine ['.', 'w', 'o', 'r', 'd', ' ', '0', 'x', '0', '1', '5', 'A'] = .ok [0x015A#16] := by decide
theorem test_asm_errors :
    assembleLine ['N', 'O', 'P', ' ', '1'] = .error .operandNotAllowed ∧
    assembleLine ['X', 'F', 'O', 'R', 'M', ' ', '2', '5', '6'] = .error .outOfRange := by decide

/-! ## The arrays (R20, R24, R50, R53) -/

theorem test_setAt_sorted :
    setAt (setAt [] 0xFF#8 0x01#8) 0x00#8 0x02#8 = [(0x00, 0x02#8), (0xFF, 0x01#8)] := by decide
theorem test_setAt_again : setAt [(0x07, 0x01#8)] 0x07#8 0x02#8 = [(0x07, 0x02#8)] := by decide
theorem test_wf : Memory.wf [(0, 0#8), (255, 0#8)] = true ∧ Memory.wf [(1, 0#8), (0, 0#8)] = false ∧
    Memory.wf [(256, 0#8)] = false := by decide

/-! ## NOP, KCLR, KPUSH -/

/-- V25: NOP on any state. -/
theorem test_nop : (after (exec .nop v20)).map (fun t => (t.I, t.S, waiting t)) =
    some (0x00#8, v20.S, some ⟨0x00#8, .ok⟩) := by decide

/-- R100: the length and the overflow go, the key bytes stay. -/
theorem test_kclr :
    (after (exec .kclr { overLong with K := keyed.K })).map (fun t => (t.KLEN, t.KOVF, t.K, waiting t)) =
      some (0#9, false, keyed.K, some ⟨0x00#8, .ok⟩) := by decide

/-- R101: the fourth byte goes to `K[3]`. -/
theorem test_kpush :
    (after (exec (.kpush 0x21#8) keyed)).map (fun t => (t.KLEN, t.KOVF, keyAt t.K 0x03#8, waiting t)) =
      some (4#9, false, 0x21#8, some ⟨0x00#8, .ok⟩) := by decide

/-- R101: push 256 is stored at `K[255]`, push 257 is dropped and sets KOVF. -/
theorem test_kpush_full :
    (after (exec (.kpush 0xAA#8) (keyLength 255#9))).map (fun t => (t.KLEN, t.KOVF, t.K)) =
      some (256#9, false, [(255, 0xAA#8)]) ∧
    (after (exec (.kpush 0xAA#8) (keyLength 256#9))).map (fun t => (t.KLEN, t.KOVF, t.K)) =
      some (256#9, true, []) := by decide

/-! ## INIT -/

/-- V40, P3: an empty and an over-long key; the running engine is kept (P4). -/
theorem test_init_invalid :
    answer (exec .init State.reset) = some ⟨0x00#8, .invalidKey⟩ ∧
    answer (exec .init overLong) = some ⟨0x00#8, .invalidKey⟩ ∧
    (after (exec .init v20)).map (fun t => (t.INITD, t.S)) = some (true, v20.S) := by decide

/-- V10, row "Key": the table after INIT, its first eight entries and its last. -/
theorem test_ksa_key :
    ((ksaTable keyed.K 3).map Prod.snd).take 8 ++ ((ksaTable keyed.K 3).map Prod.snd).drop 255 =
      [0x4B#8, 0x33#8, 0x84#8, 0x9D#8, 0xC0#8, 0xC8#8, 0x1D#8, 0xA8#8, 0x93#8] := by decide +kernel

/-- R103: what INIT writes beside the table. -/
theorem test_init :
    (after (exec .init { keyed with I := 9#8, J := 9#8 })).map
        (fun t => (t.I, t.J, t.INITD, t.KLEN, waiting t)) =
      some (0x00#8, 0x00#8, true, 3#9, some ⟨0x00#8, .ok⟩) := by decide +kernel

/-- V11: under the one-byte key 00, iteration 2 has `kj = 3` and iteration 3 then `kj = 5`. -/
theorem test_ksa_carried :
    (ksaRounds [(0, 0x00#8)] 1 3).2 = 3#8 ∧ tableAt (ksaRounds [(0, 0x00#8)] 1 3).1 0x03#8 = 2#8 ∧
    (ksaRounds [(0, 0x00#8)] 1 4).2 = 5#8 := by decide +kernel

/-! ## XFORM -/

/-- V20, row 1: `XFORM 'P'`. -/
theorem test_xform :
    (after (exec (.xform 0x50#8) v20)).map
        (fun t => (t.I, t.J, tableAt t.S 0x01#8, tableAt t.S 0x33#8, waiting t)) =
      some (0x01#8, 0x33#8, 0x4E#8, 0x33#8, some ⟨0xBB#8, .ok⟩) := by decide

/-- V25: XFORM before INIT. -/
theorem test_xform_not_init :
    (after (exec (.xform 0x41#8) State.reset)).map (fun t => (t.I, t.J, t.S, waiting t)) =
      some (0x00#8, 0x00#8, [], some ⟨0x00#8, .notInit⟩) := by decide

/-- V21: the keystream read sees the swap, at `t = J` and at `t = I`. -/
theorem test_read_after_swap :
    (prga [(0x31, 0x5E#8), (0xFD, 0xD3#8)] 0xFC#8 0x5E#8).ks = 0xD3#8 ∧
    (prga [(0x7E, 0x41#8), (0xC9, 0x88#8)] 0xC8#8 0xF6#8).ks = 0x41#8 := by decide

/-- V22: `I = J`. -/
theorem test_self_swap :
    prga [(0x16, 0xCC#8), (0x98, 0x17#8)] 0x15#8 0x4A#8 =
      ⟨[(0x16, 0xCC#8), (0x98, 0x17#8)], 0x16#8, 0x16#8, 0x17#8⟩ := by decide

/-! ## Read-back (V30) -/

theorem test_rdstat :
    answer (exec .rdstat overLong) = some ⟨0x0C#8, .ok⟩ ∧ answer (exec .rdstat v20) = some ⟨0x01#8, .ok⟩ ∧
    answer (exec .rdstat (keyLength 256#9)) = some ⟨0x08#8, .ok⟩ := by decide
theorem test_rdklen :
    answer (exec .rdklen keyed) = some ⟨0x03#8, .ok⟩ ∧
    answer (exec .rdklen (keyLength 256#9)) = some ⟨0x00#8, .ok⟩ := by decide
theorem test_rdi :
    answer (exec .rdi (running [] 0x09#8 0xDE#8)) = some ⟨0x09#8, .ok⟩ ∧
    answer (exec .rdi State.reset) = some ⟨0x00#8, .notInit⟩ ∧
    answer (exec .rdi (noDebug v20)) = some ⟨0x00#8, .illegalOp⟩ := by decide
theorem test_rdj :
    answer (exec .rdj (running [] 0x09#8 0xDE#8)) = some ⟨0xDE#8, .ok⟩ ∧
    answer (exec .rdj State.reset) = some ⟨0x00#8, .notInit⟩ ∧
    answer (exec .rdj (noDebug v20)) = some ⟨0x00#8, .illegalOp⟩ := by decide
theorem test_rds :
    answer (exec (.rds 0x33#8) v20) = some ⟨0x4E#8, .ok⟩ ∧
    answer (exec (.rds 0x33#8) State.reset) = some ⟨0x00#8, .notInit⟩ ∧
    answer (exec (.rds 0x33#8) (noDebug State.reset)) = some ⟨0x00#8, .illegalOp⟩ := by decide

/-! ## Steps -/

/-- V40: a reserved word on the port. -/
theorem test_step_reserved :
    answer (step { v20 with inputs := [present 0x0500#16 .finish] }) = some ⟨0x00#8, .illegalOp⟩ := by decide

/-- R72, R73: an accepted command, `cmd_ready` low while it is in flight. -/
theorem test_step_accept :
    (after (step { keyed with inputs := [present 0x0300#16 .wait] })).map
        (fun t => (t.phase, t.cmdReady false, t.rspValid false)) =
      some (.exec 0x0300#16, false, false) := by decide

/-- V50: a reset edge in the middle of a pass, and after one. -/
theorem test_step_reset :
    (after (step { keyed with phase := .ksa ⟨9#8, 1#8, 0#8⟩, inputs := [resetNow] })).map
        (fun t => (t.phase, t.statusReg, t.KLEN, t.INITD)) = some (.idle, 0x00#8, 0#9, false) ∧
    (after (step { v20 with inputs := [resetNow] })).map (fun t => (t.I, t.J, t.INITD)) =
      some (0x00#8, 0x00#8, false) := by decide

/-- R76, at an ordinary edge and at a reset edge. -/
theorem test_step_broken :
    step { State.reset with held := some 0x0300#16, inputs := [quiet .wait] } = .refused .handshakeBroken ∧
    step { State.reset with held := some 0x0300#16, inputs := [resetNow] } = .refused .handshakeBroken :=
  ⟨rfl, rfl⟩

/-- R109: the first edge of a pass clears INITD and shows BUSY. -/
theorem test_step_pass :
    (after (step { keyed with INITD := true, phase := .exec 0x0300#16, inputs := [quiet .work] })).map
        (fun t => (t.statusReg, t.phase)) = some (0x02#8, .ksa ⟨0#8, 0#8, 0#8⟩) := by decide +kernel

theorem test_withFetchWord :
    answer (step (State.withFetchWord v20 16 0x0450)) = some ⟨0xBB#8, .ok⟩ := by decide

/-! ## Witnesses: states that meet the invariant -/

/-- An initialised engine with the identity table and a key of one byte, an XFORM on the port. -/
def live : State :=
  { running identityTable 0x00#8 0x00#8 with
    K := [(0, 0x00#8)], KLEN := 1#9, inputs := [present 0x0400#16 .finish] }

/-- An engine whose pass has just begun. -/
def inPass : State :=
  { (State.beginPass { State.reset with K := [(0, 0x00#8)], KLEN := 1#9 }) with inputs := [quiet .work] }

theorem inv_live : live.Inv where
  tableWf := Memory.wf_identityTable
  keyWf := rfl
  klenLegal := show 1#9 ≤ 256#9 by decide
  overflowFull := fun h => by cases h
  keyWritten := fun k hk => by
    obtain rfl : k = 0 := Nat.lt_one_iff.1 hk
    rfl
  tableWritten := fun _ => writtenBelow_identityTable
  tablePermutation := fun _ => tableIsPermutation_identityTable
  pass := fun _ h => by cases h

theorem inv_inPass : inPass.Inv where
  tableWf := Memory.wf_identityTable
  keyWf := rfl
  klenLegal := show 1#9 ≤ 256#9 by decide
  overflowFull := fun h => by cases h
  keyWritten := fun k hk => by
    obtain rfl : k = 0 := Nat.lt_one_iff.1 hk
    rfl
  tableWritten := fun h => by cases h
  tablePermutation := fun h => by cases h
  pass := fun _ h => by
    cases h
    exact ⟨rfl, rfl, rfl, rfl⟩

theorem sameButUnspecified_key : live.SameButUnspecified { live with K := [(0, 0x00#8), (7, 0x55#8)] } where
  I := rfl
  J := rfl
  KLEN := rfl
  KOVF := rfl
  INITD := rfl
  phase := rfl
  debugRead := rfl
  held := rfl
  inputs := rfl
  key := fun n hn => by
    obtain rfl : n = 0x00#8 := BitVec.eq_of_toNat_eq (Nat.lt_one_iff.1 hn)
    rfl
  table := fun _ _ => rfl

theorem sameButUnspecified_table : keyed.SameButUnspecified { keyed with S := [(0, 0x07#8)] } where
  I := rfl
  J := rfl
  KLEN := rfl
  KOVF := rfl
  INITD := rfl
  phase := rfl
  debugRead := rfl
  held := rfl
  inputs := rfl
  key := fun _ _ => rfl
  table := fun h => by rcases h with h | h <;> cases h

theorem inv_keyed : keyed.Inv where
  tableWf := rfl
  keyWf := rfl
  klenLegal := show 3#9 ≤ 256#9 by decide
  overflowFull := fun h => by cases h
  keyWritten := fun k hk => by
    rcases (by change k < 3 at hk; omega : k = 0 ∨ k = 1 ∨ k = 2) with rfl | rfl | rfl <;> rfl
  tableWritten := fun h => by cases h
  tablePermutation := fun h => by cases h
  pass := fun _ h => by cases h

/-! ## Witnesses: encoding -/

theorem witness_DecodeOfEncode :
    Instr.wellFormed true (.rds 0xFF#8) = true ∧ Instr.wellFormed false (.kpush 0x00#8) = true := by decide

theorem witness_EncodeOfDecode :
    (decode true 0x14FF#16 = .command (.rds 0xFF#8) ∧ ∃ b, (Instr.rds 0xFF#8).operand = some b) ∧
    (decode false 0x01FF#16 = .command .kclr ∧ Instr.kclr.operand = none) :=
  ⟨⟨rfl, 0xFF#8, rfl⟩, rfl, rfl⟩

theorem witness_AssemblerOperandRules :
    (Instr.kpush 0xFF#8).operand = some 0xFF#8 ∧ (Instr.rds 0x00#8).operand = some 0x00#8 ∧
    Instr.init.operand = none ∧ 256 ≤ 256 := ⟨rfl, rfl, rfl, le_refl 256⟩

/-! ## Witnesses: steps and ports -/

/-- A state and an edge for each of the three clauses. -/
theorem witness_StepRunsDecodedCommand :
    (∃ (s : State) (e : ClockEdge) (rest : List ClockEdge) (i : Instr), s.inputs = e :: rest ∧ e.rst = false ∧
      e.pace = .finish ∧ (s.held = none ∨ s.held = e.presented) ∧ s.phase = .idle ∧ e.cmdValid = true ∧
      decode s.debugRead e.cmdWord = .command i) ∧
    (∃ (s : State) (e : ClockEdge) (rest : List ClockEdge) (w : Word) (i : Instr), s.inputs = e :: rest ∧
      e.rst = false ∧ e.pace = .finish ∧ (s.held = none ∨ s.held = e.presented) ∧ s.phase = .exec w ∧
      decode s.debugRead w = .command i) ∧
    (∃ (s : State) (e : ClockEdge) (rest : List ClockEdge), s.inputs = e :: rest ∧ e.rst = false ∧
      e.pace = .finish ∧ (s.held = none ∨ s.held = e.presented) ∧ s.phase = .idle ∧ e.cmdValid = true ∧
      reservedOp s.debugRead (Word.op e.cmdWord).toNat) :=
  ⟨⟨{ v20 with inputs := [present 0x04FF#16 .finish] }, _, [], .xform 0xFF#8, rfl, rfl, rfl, .inl rfl, rfl, rfl, rfl⟩,
   ⟨{ keyed with phase := .exec 0x0300#16, held := some 0x0000#16, inputs := [present 0x0000#16 .finish] }, _, [],
     0x0300#16, .init, rfl, rfl, rfl, .inr rfl, rfl, rfl⟩,
   ⟨{ v20 with inputs := [present 0xFFFF#16 .finish] }, _, [], rfl, rfl, rfl, .inl rfl, rfl, rfl, by decide⟩⟩

theorem witness_FetchedWordRuns :
    Instr.wellFormed v20.debugRead (.rds 0xFF#8) = true ∧
    Instr.wellFormed (noDebug v20).debugRead (.xform 0xFF#8) = true := by decide

/-- A running pass, two edges that differ in `cmd_valid` only. -/
theorem witness_CommandPortIgnoredUnlessIdle :
    ∃ (s t : State) (e f : ClockEdge), s.phase ≠ .idle ∧ e.rst = f.rst ∧ e.rspReady = f.rspReady ∧
      e.pace = f.pace ∧ s.handshakeBroken e = false ∧ s.handshakeBroken f = false ∧
      State.clockEdge e s = .next t ∧ e.cmdValid ≠ f.cmdValid :=
  ⟨{ keyed with phase := .ksa ⟨0xFF#8, 0#8, 0#8⟩ }, _, quiet .work, present 0x0100#16 .work,
    by decide, rfl, rfl, rfl, rfl, rfl, rfl, by decide⟩

theorem witness_ResponseHeldUntilTaken :
    (∃ (s : State) (e : ClockEdge) (rest : List ClockEdge) (r : Response), s.inputs = e :: rest ∧ e.rst = false ∧
      (s.held = none ∨ s.held = e.presented) ∧ s.phase = .resp r ∧ e.rspReady = false) ∧
    (∃ (s : State) (e : ClockEdge) (rest : List ClockEdge) (r : Response), s.inputs = e :: rest ∧ e.rst = false ∧
      (s.held = none ∨ s.held = e.presented) ∧ s.phase = .resp r ∧ e.rspReady = true) :=
  ⟨⟨{ v20 with phase := .resp ⟨0xBB#8, .ok⟩, held := some 0x0000#16, inputs := [present 0x0000#16 .wait] }, _, [],
     ⟨0xBB#8, .ok⟩, rfl, rfl, .inr rfl, rfl, rfl⟩,
   ⟨{ v20 with phase := .resp ⟨0xBB#8, .ok⟩, inputs := [ClockEdge.take] }, _, [], ⟨0xBB#8, .ok⟩,
     rfl, rfl, .inl rfl, rfl, rfl⟩⟩

theorem witness_BrokenHandshakeRefused :
    (∃ (s : State) (e : ClockEdge) (rest : List ClockEdge) (w : Word), s.inputs = e :: rest ∧
      s.held = some w ∧ e.cmdValid = false ∧ e.rst = false) ∧
    (∃ (s : State) (e : ClockEdge) (rest : List ClockEdge) (w : Word), s.inputs = e :: rest ∧
      s.held = some w ∧ e.cmdWord ≠ w ∧ e.rst = false) ∧
    (∃ (s : State) (e : ClockEdge) (rest : List ClockEdge) (w : Word), s.inputs = e :: rest ∧
      s.held = some w ∧ e.cmdValid = false ∧ e.rst = true) ∧
    (∃ (s : State) (e : ClockEdge) (rest : List ClockEdge) (w : Word), s.inputs = e :: rest ∧
      s.held = some w ∧ e.cmdWord ≠ w ∧ e.rst = true) :=
  ⟨⟨{ v20 with held := some 0x0000#16, inputs := [quiet .wait] }, _, [], 0x0000#16, rfl, rfl, rfl, rfl⟩,
   ⟨{ v20 with held := some 0x0000#16, inputs := [present 0x0001#16 .wait] }, _, [], 0x0000#16, rfl, rfl,
     by decide, rfl⟩,
   ⟨{ v20 with held := some 0x0000#16, inputs := [resetNow] }, _, [], 0x0000#16, rfl, rfl, rfl, rfl⟩,
   ⟨{ v20 with held := some 0x0000#16, inputs := [resetPresenting 0x0001#16] }, _, [], 0x0000#16, rfl, rfl,
     by decide, rfl⟩⟩

/-- A reset edge in the middle of a pass: the host presents nothing, or goes on presenting its word. -/
theorem witness_ResetEdgeEffect :
    (∃ (s : State) (e : ClockEdge) (rest : List ClockEdge), s.inputs = e :: rest ∧ e.rst = true ∧
      s.held = none) ∧
    ∃ (s : State) (e : ClockEdge) (rest : List ClockEdge), s.inputs = e :: rest ∧ e.rst = true ∧
      s.held = e.presented ∧ s.held ≠ none :=
  ⟨⟨{ keyed with phase := .ksa ⟨1#8, 1#8, 1#8⟩, inputs := [resetNow] }, _, [], rfl, rfl, rfl⟩,
   ⟨{ keyed with phase := .ksa ⟨1#8, 1#8, 1#8⟩, held := some 0#16, inputs := [resetPresenting 0#16] }, _, [],
     rfl, rfl, rfl, by decide⟩⟩

theorem witness_UninitialisedAfterReset :
    ∃ (s t : State) (e : ClockEdge) (rest : List ClockEdge), s.inputs = e :: rest ∧ e.rst = true ∧
      step s = .next t ∧ t.debugRead = true :=
  ⟨{ v20 with inputs := [resetNow] }, _, _, [], rfl, rfl, rfl, rfl⟩

theorem witness_StoppedClockHoldsState : ∃ s : State, s.inputs = [] ∧ s.phase = .exec 0x0300#16 :=
  ⟨{ keyed with phase := .exec 0x0300#16 }, rfl, rfl⟩

/-! ## Witnesses: the commands -/

theorem witness_KpushResult :
    State.reset.KLEN < 256#9 ∧ (keyLength 255#9).KLEN < 256#9 ∧ overLong.KLEN = 256#9 := by decide

theorem witness_InitRejectsBadKey :
    State.reset.KLEN = 0#9 ∧ overLong.KOVF = true ∧ (keyLength 1#9).KLEN ≠ 0#9 ∧ (keyLength 256#9).KLEN ≠ 0#9 ∧
    (keyLength 256#9).KOVF = false := by decide

theorem witness_InitResult :
    ((keyLength 1#9).KLEN ≠ 0#9 ∧ (keyLength 1#9).KOVF = false) ∧
    (keyLength 256#9).KLEN ≠ 0#9 ∧ (keyLength 256#9).KOVF = false := by decide

/-- The key lengths 1 and 256, the iterations 0 and 255, and an entry that an iteration leaves alone. -/
theorem witness_KsaFollowsTheSource :
    (1 ≤ 1 ∧ 1 ≤ 256) ∧ (1 ≤ 256 ∧ 256 ≤ 256) ∧ 0 < 256 ∧ 255 < 256 ∧
    ∃ ki j' m : Byte, ki = BitVec.ofNat 8 0 ∧
      j' = (ksaRounds keyed.K 3 0).2 + tableAt (ksaRounds keyed.K 3 0).1 ki + keyAt keyed.K (BitVec.ofNat 8 (0 % 3)) ∧
      m ≠ ki ∧ m ≠ j' :=
  ⟨by decide, by decide, by decide, by decide, 0x00#8, 0x4B#8, 0x01#8, rfl, by decide +kernel, by decide, by decide⟩

theorem witness_XformResult :
    (v20.INITD = true ∧ 0x01#8 = v20.I + 1#8 ∧ 0x33#8 = v20.J + tableAt v20.S 0x01#8 ∧
      0x00#8 ≠ 0x01#8 ∧ 0x00#8 ≠ 0x33#8) ∧ State.reset.INITD = false := by decide

theorem witness_RdstatResult : ∃ (s : State) (w : Word), s.phase = .exec w ∧ 4 ≤ 4 :=
  ⟨{ v20 with phase := .exec 0x1000#16 }, 0x1000#16, rfl, le_refl 4⟩

theorem witness_RdklenResult : State.reset.KLEN = 0#9 ∧ (keyLength 256#9).KLEN = 256#9 := by decide

/-- One state for each of the three clauses. -/
theorem witness_RdiResult :
    (v20.debugRead = true ∧ v20.INITD = true) ∧ (noDebug v20).debugRead = false ∧
    State.reset.debugRead = true ∧ State.reset.INITD = false := by decide

theorem witness_RdjResult :
    (v20.debugRead = true ∧ v20.INITD = true) ∧ (noDebug State.reset).debugRead = false ∧
    State.reset.debugRead = true ∧ State.reset.INITD = false := by decide

theorem witness_RdsResult :
    (v20.debugRead = true ∧ v20.INITD = true) ∧ (noDebug v20).debugRead = false ∧
    State.reset.debugRead = true ∧ State.reset.INITD = false := by decide

/-! ## Witnesses: errors, status and the PRGA step -/

/-- Both ends of each range of reserved opcodes. -/
theorem witness_ReservedOpcodeIsIllegal :
    reservedOp true (Word.op 0x0500#16).toNat ∧ reservedOp true (Word.op 0x0FFF#16).toNat ∧
    reservedOp true (Word.op 0x1500#16).toNat ∧ reservedOp true (Word.op 0xFFFF#16).toNat ∧
    reservedOp (noDebug v20).debugRead (Word.op 0x1200#16).toNat ∧
    reservedOp (noDebug v20).debugRead (Word.op 0x14FF#16).toNat := by decide

theorem witness_ResponseCodePriority :
    reservedOp (noDebug State.reset).debugRead (Word.op 0x1400#16).toNat ∧
    ¬ reservedOp State.reset.debugRead (Word.op 0x1400#16).toNat ∧ needsInit (Word.op 0x1400#16).toNat ∧
    needsInit (Word.op 0x0400#16).toNat ∧ (Word.op 0x0300#16).toNat = 0x03 ∧ ¬ needsInit 0x03 := by decide

theorem witness_CommandsThatNeverFail (b : Byte) :
    (Instr.nop = .nop ∨ Instr.nop = .kclr ∨ Instr.nop = .kpush b ∨ Instr.nop = .rdstat ∨ Instr.nop = .rdklen) ∧
    (Instr.kpush b = .nop ∨ Instr.kpush b = .kclr ∨ Instr.kpush b = .kpush b ∨ Instr.kpush b = .rdstat ∨
      Instr.kpush b = .rdklen) ∧ overLong.KLEN = 256#9 := ⟨.inl rfl, .inr (.inr (.inl rfl)), rfl⟩

/-- One command for each of the three error codes. -/
theorem witness_ErrorWritesNothing :
    (∃ (s t : State) (w : Word) (r : Response), s.complete w = .next t ∧ t.phase = .resp r ∧ r.code = .invalidKey) ∧
    (∃ (s t : State) (w : Word) (r : Response), s.complete w = .next t ∧ t.phase = .resp r ∧ r.code = .notInit) ∧
    (∃ (s t : State) (w : Word) (r : Response), s.complete w = .next t ∧ t.phase = .resp r ∧ r.code = .illegalOp) :=
  ⟨⟨State.reset, _, 0x0300#16, _, rfl, rfl, rfl⟩, ⟨State.reset, _, 0x0400#16, _, rfl, rfl, rfl⟩,
   ⟨State.reset, _, 0x0500#16, _, rfl, rfl, rfl⟩⟩

theorem witness_StatusFields :
    State.reset.KLEN ≤ 256#9 ∧ overLong.KLEN ≤ 256#9 ∧ 4 ≤ 4 := by decide

theorem witness_StatusPortShowsStatus :
    v20.phase = .idle ∧ (∃ s : State, ∃ r, s.phase = .resp r) ∧ (∃ s : State, s.Inv ∧ s.busy = true) ∧ 4 ≤ 4 :=
  ⟨rfl, ⟨{ v20 with phase := .resp ⟨0x00#8, .ok⟩ }, _, rfl⟩, ⟨inPass, inv_inPass, rfl⟩, le_refl 4⟩

/-- V21, both cases, and V20, row 1. -/
theorem witness_KeystreamReadAfterSwap :
    (∃ (S : Memory) (I J I' J' t : Byte), I' = I + 1#8 ∧ J' = J + tableAt S I' ∧
      t = tableAt S I' + tableAt S J' ∧ t = I') ∧
    (∃ (S : Memory) (I J I' J' t : Byte), I' = I + 1#8 ∧ J' = J + tableAt S I' ∧
      t = tableAt S I' + tableAt S J' ∧ t = J') ∧
    (∃ (S : Memory) (I J I' J' t : Byte), I' = I + 1#8 ∧ J' = J + tableAt S I' ∧
      t = tableAt S I' + tableAt S J' ∧ t ≠ I' ∧ t ≠ J') :=
  ⟨⟨[(0x7E, 0x41#8), (0xC9, 0x88#8)], 0xC8#8, 0xF6#8, 0xC9#8, 0x7E#8, 0xC9#8, by decide⟩,
   ⟨[(0x31, 0x5E#8), (0xFD, 0xD3#8)], 0xFC#8, 0x5E#8, 0xFD#8, 0x31#8, 0x31#8, by decide⟩,
   ⟨v20.S, 0x00#8, 0x00#8, 0x01#8, 0x33#8, 0x81#8, by decide⟩⟩

/-- V22. -/
theorem witness_StepArithmetic :
    ∃ (S : Memory) (I J I' J' : Byte), I' = I + 1#8 ∧ J' = J + tableAt S I' ∧ J' = I' :=
  ⟨[(0x16, 0xCC#8)], 0x15#8, 0x4A#8, 0x16#8, 0x16#8, by decide⟩

theorem witness_KeystreamIndependentOfData :
    ∃ (d d' : Byte) (s t t' : State), s.INITD = true ∧ exec (.xform d) s = .next t ∧
      exec (.xform d') s = .next t' ∧ d ≠ d' :=
  ⟨0x00#8, 0xFF#8, v20, _, _, rfl, rfl, rfl, by decide⟩

theorem witness_XformKeepsPermutation :
    ∃ (d : Byte) (s t : State), tableIsPermutation s.S ∧ exec (.xform d) s = .next t ∧ s.INITD = true :=
  ⟨0x00#8, running identityTable 0xFF#8 0x00#8, _, tableIsPermutation_identityTable, rfl, rfl⟩

/-! ## Witnesses: the key schedule -/

theorem witness_InitGivesPermutation :
    (keyLength 1#9).KLEN ≠ 0#9 ∧ (keyLength 256#9).KLEN ≠ 0#9 ∧ (keyLength 256#9).KOVF = false := by decide

/-- Another table, other counters and other key bytes at 3 and above. -/
theorem witness_InitDependsOnKeyOnly :
    ∃ s t s' : State, s.KLEN ≠ 0#9 ∧ s.KOVF = false ∧ t.KLEN = s.KLEN ∧ t.KOVF = s.KOVF ∧
      (∀ n : Byte, n.toNat < s.KLEN.toNat → keyAt t.K n = keyAt s.K n) ∧ exec .init s = .next s' ∧ t.K ≠ s.K := by
  obtain ⟨s', r, h, -⟩ := exec_next .init keyed
  refine ⟨keyed, { v20 with K := setAt keyed.K 0x03#8 0x00#8, KLEN := 3#9 }, s', by decide, rfl, rfl, rfl, ?_, h,
    by decide⟩
  intro n hn
  exact (keyAt_setAt keyed.K 0x03#8 n 0x00#8).trans (if_neg fun e => absurd hn (by subst e; decide))

/-- A key of one byte, the same twice, and (a length that 2 does not divide to) 256. -/
theorem witness_RepeatedKeySameTable :
    (∃ (K K' : Memory) (p q : Nat), 1 ≤ p ∧ p ≤ q ∧ q ≤ 256 ∧ p ∣ q ∧ p ≠ q ∧
      ∀ n, n < q → keyAt K' (BitVec.ofNat 8 n) = keyAt K (BitVec.ofNat 8 (n % p))) ∧
    ∃ (K K' : Memory) (p q : Nat), 1 ≤ p ∧ p ≤ q ∧ q = 256 ∧
      ∀ n, n < q → keyAt K' (BitVec.ofNat 8 n) = keyAt K (BitVec.ofNat 8 (n % p)) := by
  refine ⟨⟨[(0, 0x4B#8)], [(0, 0x4B#8), (1, 0x4B#8)], 1, 2, by decide, by decide, by decide, by decide, by decide, ?_⟩,
    ⟨[], [], 256, 256, by decide, le_refl _, rfl, ?_⟩⟩
  · intro n hn
    rcases (by omega : n = 0 ∨ n = 1) with rfl | rfl <;> rfl
  · intro n hn
    rw [Nat.mod_eq_of_lt hn]

theorem witness_InitIsIdempotent :
    ∃ s t : State, s.KLEN ≠ 0#9 ∧ s.KOVF = false ∧ exec .init s = .next t := by
  obtain ⟨t, r, h, -⟩ := exec_next .init keyed
  exact ⟨keyed, t, by decide, rfl, h⟩

/-- A ready engine, and a key length for each clause at each end. -/
theorem witness_LdkeyLoadsTheKey :
    v20.ready ∧ (1 ≤ (List.replicate 1 0x00#8).length ∧ (List.replicate 1 0x00#8).length ≤ 256) ∧
    (1 ≤ (List.replicate 256 0x00#8).length ∧ (List.replicate 256 0x00#8).length ≤ 256) ∧
    ([] : List Byte).length = 0 ∧ 257 ≤ (List.replicate 257 0x00#8).length := by
  simp only [List.length_replicate]
  exact ⟨⟨rfl, rfl⟩, by decide, by decide, rfl, by decide⟩

/-! ## Witnesses: invariants and latency -/

/-- An XFORM of an initialised engine, and an iteration of a running pass. -/
theorem witness_StepKeepsInv :
    (∃ s t : State, s.Inv ∧ s.INITD = true ∧ step s = .next t) ∧
    ∃ s t : State, s.Inv ∧ s.busy = true ∧ step s = .next t :=
  ⟨⟨live, _, inv_live, rfl, rfl⟩, inPass, _, inv_inPass, rfl, rfl⟩

/-- A full buffer, the byte of push 257 on the port. -/
theorem witness_OverflowImpliesFull :
    ∃ s t : State, s.KLEN ≤ 256#9 ∧ (s.KOVF = true → s.KLEN = 256#9) ∧ step s = .next t ∧ t.KOVF = true :=
  ⟨{ keyLength 256#9 with inputs := [present 0x0200#16 .finish] }, _, (show 256#9 ≤ 256#9 by decide), fun _ => rfl, rfl, rfl⟩

theorem witness_TableStaysPermutation :
    ∃ s t : State, ((s.INITD = true ∨ s.busy = true) → tableIsPermutation s.S) ∧ step s = .next t ∧
      t.INITD = true :=
  ⟨live, _, fun _ => inv_live.tablePermutation rfl, rfl, rfl⟩

/-- Two edges at which nothing happens, then one that completes the command. -/
theorem witness_PacedCommandMatchesAtomic :
    ∃ (n : Nat) (s t u : State) (w : Word) (r : Response), s.phase = .exec w ∧
      (∀ e ∈ s.inputs.take n, e.rst = false ∧ e.rspReady = false) ∧ s.steps n = .next t ∧ t.phase = .resp r ∧
      s.complete w = .next u ∧ n = 3 :=
  ⟨3, { v20 with phase := .exec 0x0450#16, inputs := [quiet .wait, quiet .wait, quiet .work] }, _, _, 0x0450#16, _,
    rfl, by decide, rfl, rfl, rfl, rfl⟩

theorem witness_PassTakes256Iterations :
    ∃ (s : State) (w : Word) (e : ClockEdge), s.phase = .exec w ∧ s.startsPass w = true ∧ s.held = none ∧
      e = { rst := false, cmdValid := false, cmdWord := 0#16, rspReady := false, pace := .work } ∧ 0 < 256 ∧ 255 < 256 :=
  ⟨{ keyed with phase := .exec 0x0300#16 }, 0x0300#16, _, rfl, rfl, rfl, rfl, by decide, by decide⟩

/-- A running pass, and a command in EXEC with the next one already presented. -/
theorem witness_InFlightCommandCompletes :
    (∃ (s : State) (e f : ClockEdge) (rest : List ClockEdge), s.inFlight ∧ s.inputs = e :: f :: rest ∧
      e.rst = false ∧ e.pace = .finish ∧ (s.held = none ∨ s.held = e.presented) ∧ f.rst = false ∧
      f.rspReady = true ∧ (e.presented = none ∨ e.presented = f.presented)) ∧
    ∃ (s : State) (e f : ClockEdge) (rest : List ClockEdge), s.inFlight ∧ s.inputs = e :: f :: rest ∧
      e.rst = false ∧ e.pace = .finish ∧ (s.held = none ∨ s.held = e.presented) ∧ f.rst = false ∧
      f.rspReady = true ∧ e.presented ≠ none ∧ e.presented = f.presented :=
  ⟨⟨{ keyed with phase := .ksa ⟨0#8, 0#8, 0#8⟩, inputs := [quiet .finish, ClockEdge.take] }, _, _, [],
     .inr ⟨_, rfl⟩, rfl, rfl, rfl, .inl rfl, rfl, rfl, .inl rfl⟩,
   ⟨{ keyed with
        phase := .exec 0x0300#16
        inputs := [present 0x0400#16 .finish, takeAndPresent 0x0400#16] }, _, _, [],
     .inl ⟨_, rfl⟩, rfl, rfl, rfl, .inl rfl, rfl, rfl, by decide, rfl⟩⟩

/-! ## Witnesses: what cannot be seen, and sequences -/

/-- Two states that differ in key bytes above `KLEN`; the second clause differs in an uninitialised table. -/
theorem witness_UnspecifiedContentsUnobserved :
    (∃ s t s' : State, s.Inv ∧ s.SameButUnspecified t ∧ step s = .next s' ∧ s.K ≠ t.K) ∧
    ∃ s t s' : State, s.Inv ∧ s.SameButUnspecified t ∧ step s = .next s' ∧ s.S ≠ t.S :=
  ⟨⟨live, _, _, inv_live, sameButUnspecified_key, rfl, by decide⟩,
   keyed, _, _, inv_keyed, sameButUnspecified_table, rfl, by decide⟩

/-- INIT under two key buffers. -/
theorem witness_KeyBufferNeverReturned :
    (∃ (s t t' : State) (K' : Memory), exec .init s = .next t ∧ exec .init { s with K := K' } = .next t' ∧
      K' ≠ s.K) ∧
    ∃ (i : Instr) (s t t' : State) (K' : Memory), exec i s = .next t ∧ exec i { s with K := K' } = .next t' ∧
      i ≠ .init := by
  obtain ⟨t, r, h, -⟩ := exec_next .init keyed
  obtain ⟨t', r', h', -⟩ := exec_next .init { keyed with K := [] }
  exact ⟨⟨keyed, t, t', [], h, h', by decide⟩, .rds 0x01#8, v20, _, _, keyed.K, rfl, rfl, by decide⟩

theorem witness_DebugReadGatesThreeCommands :
    (∃ (i : Instr) (s t : State), i.isDebugRead = false ∧ exec i s = .next t) ∧
    ¬ (0x12 ≤ (Word.op 0x11FF#16).toNat ∧ (Word.op 0x11FF#16).toNat ≤ 0x14) ∧
    ¬ (0x12 ≤ (Word.op 0x1500#16).toNat ∧ (Word.op 0x1500#16).toNat ≤ 0x14) :=
  ⟨⟨.xform 0x50#8, v20, _, rfl, rfl⟩, by decide, by decide⟩

theorem witness_KeystreamIgnoresKeyBuffer :
    (∃ s t : State, exec (.kpush 0x11#8) s = .next t ∧ s.INITD = true) ∧
    (∃ s t : State, exec .kclr s = .next t ∧ s.INITD = true) ∧
    ∃ s t : State, exec (.xform 0x50#8) s = .next t ∧ s.INITD = true :=
  ⟨⟨v20, _, rfl, rfl⟩, ⟨v20, _, rfl, rfl⟩, v20, _, rfl, rfl⟩

theorem witness_OneResponsePerCommand : State.reset.ready ∧ v20.ready := ⟨⟨rfl, rfl⟩, rfl, rfl⟩

/-- Two engines in different states, and keys of 1 and 256 bytes. -/
theorem witness_EncryptThenDecrypt :
    v20.ready ∧ overLong.ready ∧ (1 ≤ (List.replicate 1 0x4B#8).length ∧ (List.replicate 1 0x4B#8).length ≤ 256) ∧
    1 ≤ (List.replicate 256 0x4B#8).length ∧ (List.replicate 256 0x4B#8).length ≤ 256 := by
  simp only [List.length_replicate]
  exact ⟨⟨rfl, rfl⟩, ⟨rfl, rfl⟩, by decide, by decide⟩

/-- V26's commands between two pieces, and a reserved word. -/
theorem witness_KeystreamContinuity :
    v20.ready ∧ ∀ w ∈ [0x0100#16, 0x0211#16, 0x1000#16, 0x0500#16],
      (Word.op w).toNat ≠ 0x03 ∧ (Word.op w).toNat ≠ 0x04 := ⟨⟨rfl, rfl⟩, by simp [Word.op]⟩

theorem witness_IndexCountsXforms :
    v20.ready ∧ v20.INITD = true ∧ ∀ w ∈ [0x0400#16, 0x0100#16, 0x04FF#16], (Word.op w).toNat ≠ 0x03 :=
  ⟨⟨rfl, rfl⟩, rfl, by simp [Word.op]⟩

end Sys2Proof.Tests
end

section
/-! PROOFS of the family 00_scope.md: a step runs the decoded command, and the command's pace does not show
in what it leaves. -/

namespace Sys2Proof.Machine

open Sys2Proof

/-! ## What a completion does, by what the word decodes to (R14, R104, R163) -/

theorem State.complete_of_command {s : State} {w : Word} {i : Instr} (h : decode s.debugRead w = .command i) :
    s.complete w = exec i s := by simp [State.complete, h]

theorem State.complete_of_reserved {s : State} {w : Word} {op : Byte}
    (h : decode s.debugRead w = .reserved op) : s.complete w = .next (s.raiseError .illegalOp) := by
  simp [State.complete, h]

/-- R104: what starts a pass is an INIT with a valid key. -/
theorem State.startsPass_iff {s : State} {w : Word} :
    s.startsPass w = true ↔ decode s.debugRead w = .command .init ∧ s.keyInvalid = false := by
  simp [State.startsPass]

/-- A command that starts a pass completes, atomically, as the pass ends (R103). -/
theorem State.complete_of_startsPass {s : State} {w : Word} (h : s.startsPass w = true) :
    s.complete w = .next (State.endPass { s with S := ksaTable s.K s.KLEN.toNat }) := by
  obtain ⟨hd, hk⟩ := State.startsPass_iff.1 h
  rw [State.complete_of_command hd]
  exact execInit_of_valid hk

/-- R82: a word with a reserved opcode is rejected under that opcode. -/
theorem decode_of_reservedOp {dbg : Bool} {w : Word} (h : reservedOp dbg (Word.op w).toNat) :
    decode dbg w = .reserved (Word.op w) := by
  unfold decode
  split
  -- RDI, RDJ and RDS are reserved only in a build without DEBUG_READ.
  case h_8 hop | h_9 hop | h_10 hop =>
    have hdbg : dbg = false := by
      rw [hop] at h
      simpa [reservedOp] using h
    simp [hdbg]
  case h_11 => rfl
  -- The other opcodes lie in no reserved range.
  all_goals
    rename_i hop
    rw [hop] at h
    omega

/-! ## A step at the pace that completes the command (log 3) -/

section
variable {s : State} {e : ClockEdge} {rest : List ClockEdge} (hin : s.inputs = e :: rest) (hrst : e.rst = false)
  (hpace : e.pace = .finish) (hheld : s.held = none ∨ s.held = e.presented)
include hin hrst hpace hheld

/-- An idle engine accepts the presented word and completes it. -/
theorem step_idle_finish (hp : s.phase = .idle) (hv : e.cmdValid = true) :
    step s = State.complete e.cmdWord { s with inputs := rest, phase := .exec e.cmdWord, held := none } := by
  have hb := State.handshakeBroken_eq_false (s := { s with inputs := rest }) hheld
  rw [step_of_inputs hin, State.clockEdge_idle hrst hb hp, if_pos hv, hpace]
  exact State.advance_exec_finish rfl

/-- A command in flight completes. -/
theorem step_exec_finish {w : Word} (hp : s.phase = .exec w) :
    step s = State.complete w { s with inputs := rest, held := e.presented } := by
  have hb := State.handshakeBroken_eq_false (s := { s with inputs := rest }) hheld
  rw [step_of_inputs hin, State.clockEdge_exec hrst hb hp, hpace]
  exact State.advance_exec_finish hp

end

/-- Settles O7: at an edge with the pace `finish` a step is the completion of the word in flight, and a
completion is `exec` of what the word decodes to. -/
theorem stepRunsDecodedCommand : Obligations.StepRunsDecodedCommand := by
  intro s e rest i hin hrst hpace hheld
  refine ⟨fun hp hv hd => ?_, fun w hp hd => ?_, fun hp hv hop => ?_⟩
  · rw [step_idle_finish hin hrst hpace hheld hp hv]
    exact State.complete_of_command hd
  · rw [step_exec_finish hin hrst hpace hheld hp]
    exact State.complete_of_command hd
  · rw [step_idle_finish hin hrst hpace hheld hp hv]
    exact State.complete_of_reserved (decode_of_reservedOp hop)

/-! ## A command at any pace leaves what its completion leaves (R14, R109, R199)

The simulation relation: in every phase of a command in flight, what is left of it would leave `u`. -/

/-- The end of a pass overwrites what an iteration writes, but for the table. -/
theorem State.endPass_passIteration (s : State) (r : KsaRegs) (S : Memory) :
    State.endPass { s.passIteration r with S := S } = State.endPass { s with S := S } := by
  rw [State.passIteration_eq]
  dsimp only
  split <;> rfl

/-- `u` with the host's side (`held` and `inputs`, log 2 and log 5) of `s`. -/
def State.withHostOf (u s : State) : State := { u with held := s.held, inputs := s.inputs }

@[simp] theorem State.withHostOf_phase (u s : State) : (u.withHostOf s).phase = u.phase := rfl

/-- What is left of the command in flight in `s` leaves `u`, but for the host's side: an accepted command's
atomic completion leaves it; a running pass, which satisfies its invariant, ends in it with the table of the
whole loop; with the response there, the state is `u`. -/
def State.HeadsFor (s u : State) : Prop :=
  match s.phase with
  | .idle => False
  | .exec w => s.complete w = .next (u.withHostOf s)
  | .ksa r => PassInv s r ∧ State.endPass { s with S := ksaTable s.K s.KLEN.toNat } = u.withHostOf s
  | .resp _ => s = u.withHostOf s

section
variable {s u : State}

theorem State.not_headsFor_idle (hp : s.phase = .idle) : ¬ s.HeadsFor u := by simp [State.HeadsFor, hp]

theorem State.headsFor_exec {w : Word} (hp : s.phase = .exec w) :
    s.HeadsFor u ↔ s.complete w = .next (u.withHostOf s) := by simp only [State.HeadsFor, hp]

theorem State.headsFor_ksa {r : KsaRegs} (hp : s.phase = .ksa r) :
    s.HeadsFor u ↔
      PassInv s r ∧ State.endPass { s with S := ksaTable s.K s.KLEN.toNat } = u.withHostOf s := by
  simp only [State.HeadsFor, hp]

theorem State.headsFor_resp {r : Response} (hp : s.phase = .resp r) :
    s.HeadsFor u ↔ s = u.withHostOf s := by simp only [State.HeadsFor, hp]

end

/-- The relation says nothing of the host's side. -/
theorem State.HeadsFor.withHostOf {s u : State} (t : State) (h : s.HeadsFor u) : (s.withHostOf t).HeadsFor u := by
  have hphase := State.withHostOf_phase s t
  cases hp : s.phase with
  | idle => exact absurd h (State.not_headsFor_idle hp)
  | exec w =>
    have hc := State.complete_with_host t.held t.inputs ((State.headsFor_exec hp).1 h)
    exact (State.headsFor_exec (hphase.trans hp)).2 hc
  | ksa r =>
    obtain ⟨⟨hinitd, hkey, hidx, hrounds⟩, hend⟩ := (State.headsFor_ksa hp).1 h
    exact (State.headsFor_ksa (hphase.trans hp)).2
      ⟨⟨hinitd, hkey, hidx, hrounds⟩, congrArg (State.withHostOf · t) hend⟩
  | resp r =>
    have hdone := congrArg (State.withHostOf · t) ((State.headsFor_resp hp).1 h)
    exact (State.headsFor_resp (hphase.trans hp)).2 hdone

/-- The beginning of a pass still heads for what the atomic INIT leaves. -/
theorem State.HeadsFor.beginPass {s u : State} {w : Word} (hp : s.phase = .exec w) (h : s.HeadsFor u)
    (hs : s.startsPass w = true) : s.beginPass.HeadsFor u := by
  have hend := (State.complete_of_startsPass hs).symm.trans ((State.headsFor_exec hp).1 h)
  exact (State.headsFor_ksa rfl).2 ⟨passInv_beginPass (State.startsPass_iff.1 hs).2, Host.Outcome.next.inj hend⟩

/-- The completion leaves the state headed for. -/
theorem State.HeadsFor.complete {s t u : State} {w : Word} (hp : s.phase = .exec w) (h : s.HeadsFor u)
    (hc : s.complete w = .next t) : t.HeadsFor u := by
  obtain ⟨t', r, ht', hr⟩ := State.complete_next w s
  obtain rfl : t' = t := Host.Outcome.next.inj (ht'.symm.trans hc)
  have ht := Host.Outcome.next.inj (hc.symm.trans ((State.headsFor_exec hp).1 h))
  exact (State.headsFor_resp hr).2 (by rw [ht]; rfl)

/-- One iteration of a pass still heads for the same state: the last one reaches it, the others keep the
invariant of the pass. -/
theorem State.HeadsFor.passIteration {s u : State} {r : KsaRegs} (hp : s.phase = .ksa r) (h : s.HeadsFor u) :
    (s.passIteration r).HeadsFor u := by
  obtain ⟨hinv, hend⟩ := (State.headsFor_ksa hp).1 h
  by_cases hki : r.ki = 0xFF#8
  · rw [passIteration_last hinv hki]
    exact (State.headsFor_resp rfl).2 hend
  · obtain ⟨q, hq, -, -, hqinv⟩ := passInv_passIteration hinv hki
    refine (State.headsFor_ksa hq).2 ⟨hqinv, ?_⟩
    rw [State.endPass_passIteration, State.passIteration_K, State.passIteration_KLEN, hend]
    simp [State.withHostOf]

/-- Whatever the pace, an advance heads for the same state. -/
theorem State.HeadsFor.advance {s t u : State} {p : Pace} (h : s.HeadsFor u) (ha : s.advance p = .next t) :
    t.HeadsFor u := by
  rcases State.advance_cases ha with
    h1 | ⟨w, hp, hs, h1⟩ | ⟨w, v, hp, hc, h1⟩ | ⟨r, hp, h1⟩ | ⟨r, hp, h1⟩ <;> cases h1
  · exact h
  · exact h.beginPass hp hs
  · exact h.complete hp hc
  · exact h.passIteration hp
  · exact State.passIterations_keeps (P := fun v => v.HeadsFor u) (fun _ _ hq hv => hv.passIteration hq) _ s h

/-- An edge without reset, at which no response is taken, heads for the same state. -/
theorem State.HeadsFor.clockEdge {s t u : State} {e : ClockEdge} (h : s.HeadsFor u) (hrst : e.rst = false)
    (hrsp : e.rspReady = false) (he : s.clockEdge e = .next t) : t.HeadsFor u := by
  have hheld : State.HeadsFor { s with held := e.presented } u := h.withHostOf { s with held := e.presented }
  rcases State.clockEdge_cases he with
    ⟨-, h1⟩ | ⟨hr, -, -⟩ | ⟨-, -, ⟨hp, -, -⟩ | ⟨hp, -, -⟩ | ⟨-, ha⟩ | ⟨r, hp, h1⟩⟩
  · cases h1
  · simp [hrst] at hr
  · exact absurd h (State.not_headsFor_idle hp)
  · exact absurd h (State.not_headsFor_idle hp)
  · exact hheld.advance ha
  · cases h1
    simpa [hrsp, ← hp] using hheld

/-- Any number of such edges heads for the same state. -/
theorem State.HeadsFor.steps {n : Nat} {s t u : State} (h : s.HeadsFor u)
    (hedges : ∀ e ∈ s.inputs.take n, e.rst = false ∧ e.rspReady = false) (hs : s.steps n = .next t) :
    t.HeadsFor u := by
  induction n generalizing s with
  | zero => cases hs; exact h
  | succ n ih =>
    rw [State.steps] at hs
    cases hstep : step s with
    | fault f => simp [hstep] at hs
    | refused r => simp [hstep] at hs
    | next v =>
      simp only [hstep] at hs
      cases hin : s.inputs with
      | nil =>
        obtain rfl : s = v := by simpa [step_of_no_inputs hin] using hstep
        exact ih h (by simp [hin]) hs
      | cons e rest =>
        rw [hin, List.take_succ_cons, List.forall_mem_cons] at hedges
        obtain ⟨⟨hrst, hrsp⟩, hrest⟩ := hedges
        rw [← step_inputs hin hstep] at hrest
        rw [step_of_inputs hin] at hstep
        exact ih ((h.withHostOf { s with inputs := rest }).clockEdge hrst hrsp hstep) hrest hs

/-- Settles O50: the accepted command heads for what its completion leaves, every edge keeps that, and the
response is there only when that state is reached. -/
theorem pacedCommandMatchesAtomic : Obligations.PacedCommandMatchesAtomic := by
  intro n s t u w r hp hedges hs ht hu
  obtain ⟨-, hheld, hin⟩ := State.complete_frame hu
  have hself : u = u.withHostOf s := by rw [State.withHostOf, ← hheld, ← hin]
  have haccepted : s.HeadsFor u := (State.headsFor_exec hp).2 (by rw [hu, ← hself])
  exact (State.headsFor_resp ht).1 (haccepted.steps hedges hs)

end Sys2Proof.Machine
end

section
/-! PROOFS of the family 10_state.md: the invariant at reset and over every step, the table a permutation
wherever the engine uses it, STATUS and its port, and what the key commands leave alone. -/

namespace Sys2Proof.Machine

open Sys2Proof

/-! ## BUSY, STATUS and the status port (R28, R29, R30) -/

/-- R28: BUSY is 1 exactly while a pass runs. -/
theorem State.busy_iff {s : State} : s.busy = true ↔ ∃ r, s.phase = .ksa r := by
  unfold State.busy
  split <;> simp_all

theorem State.busy_eq_false {s : State} (h : ∀ r, s.phase ≠ .ksa r) : s.busy = false := by
  rw [← Bool.not_eq_true, State.busy_iff]
  rintro ⟨r, hr⟩
  exact h r hr

/-- Outside a command's execution the port shows STATUS. -/
theorem State.statusPort_eq_statusReg {s : State} (h : s.phase = .idle ∨ ∃ r, s.phase = .resp r) :
    s.statusPort = s.statusReg := by
  rcases h with h | ⟨r, h⟩ <;> simp only [State.statusPort, h]

/-- Bits 7:4 of the port read 0 in every phase, whatever the two open fields show (log 6). -/
theorem State.statusPort_reserved (s : State) {k : Nat} (h : 4 ≤ k) : s.statusPort.getLsbD k = false := by
  unfold State.statusPort
  split
  · exact s.statusReg_reserved h
  · exact s.statusReg_reserved h
  all_goals
    have hinitd : ¬ k < 1 := by omega
    have hbusy : ¬ k - 1 < 1 := by omega
    have hopen : ¬ k - 1 - 1 < 2 := by omega
    simp only [BitVec.getLsbD_append, hinitd, hbusy, hopen, if_false, BitVec.getLsbD_zero]

/-- Settles O35: STATUS field by field; KFULL is bit 8 of a legal `KLEN`. -/
theorem statusFields : Obligations.StatusFields := by
  intro s hlegal
  refine ⟨s.statusReg_initd, s.statusReg_busy, s.statusReg_kovf, ?_, fun k hk => s.statusReg_reserved hk⟩
  rw [s.statusReg_kfull]
  exact s.kfull_iff hlegal

/-- Settles O36: BUSY is the phase KSA, and there the invariant of the pass has INITD 0. -/
theorem statusPortShowsStatus : Obligations.StatusPortShowsStatus := by
  intro s
  obtain ⟨hinitd, hbusy⟩ := s.statusPort_low
  refine ⟨State.statusPort_eq_statusReg, hinitd, hbusy, State.busy_iff, fun hinv hb => ?_,
    fun k hk => s.statusPort_reserved hk⟩
  obtain ⟨r, hr⟩ := State.busy_iff.1 hb
  exact hinitd.trans (hinv.pass r hr).notInitialised

/-! ## Reset (R36) -/

/-- Settles O16: the registers of the reset state, and the ports they give. -/
theorem resetValues : Obligations.ResetValues := by
  unfold Obligations.ResetValues
  decide

/-- Settles O46: nothing is written, the key is empty, and neither INITD nor a pass asks for a table. -/
theorem resetMeetsInv : Obligations.ResetMeetsInv where
  tableWf := Memory.wf_nil
  keyWf := Memory.wf_nil
  klenLegal := by decide
  overflowFull := by decide
  keyWritten k hk := absurd hk (Nat.not_lt_zero k)
  tableWritten hinitd := by cases hinitd
  tablePermutation hinitd := by cases hinitd
  pass r hr := by cases hr

/-! ## What the commands leave of the running keystream (R35) -/

/-- Only INIT and XFORM write what the keystream runs on. -/
theorem exec_keeps_keystream {i : Instr} {s t : State} (hinit : i ≠ .init) (hxform : ∀ d, i ≠ .xform d)
    (h : exec i s = .next t) : t.S = s.S ∧ t.I = s.I ∧ t.J = s.J ∧ t.INITD = s.INITD := by
  rcases exec_cases h with
    ⟨d, c, rfl⟩ | ⟨-, rfl⟩ | ⟨b, -, -, rfl⟩ | ⟨b, -, -, rfl⟩ | ⟨hi, -, -⟩ | ⟨d, hd, -, -⟩
  case inr.inr.inr.inr.inl => exact absurd hi hinit
  case inr.inr.inr.inr.inr => exact absurd hd (hxform d)
  all_goals exact ⟨rfl, rfl, rfl, rfl⟩

/-- XFORM does the same with any other key state, which it leaves as it is. -/
theorem execXform_with_key {d : Byte} {s t : State} (K' : Memory) (n : BitVec 9) (o : Bool)
    (h : execXform d s = .next t) :
    execXform d { s with K := K', KLEN := n, KOVF := o } = .next { t with K := K', KLEN := n, KOVF := o } := by
  rcases Bool.eq_false_or_eq_true s.INITD with hinitd | hinitd
  · rw [execXform_of_initd d hinitd] at h
    cases h
    exact execXform_of_initd d hinitd
  · rw [execXform_of_not_initd d hinitd] at h
    cases h
    exact execXform_of_not_initd d hinitd

/-- Settles O56: KCLR and KPUSH are neither INIT nor XFORM, and XFORM reads no key state. -/
theorem keystreamIgnoresKeyBuffer : Obligations.KeystreamIgnoresKeyBuffer := by
  refine ⟨fun b i s t hi h => ?_, fun d s t K' n o h => execXform_with_key K' n o h⟩
  rcases hi with rfl | rfl <;> exact exec_keeps_keystream (by simp) (by simp) h

/-! ## The table is a permutation wherever the engine uses it (R21) -/

/-- R21, with the table of a running pass: what the engine reads as a table is a permutation. -/
def State.TablePerm (s : State) : Prop := (s.INITD = true ∨ s.busy = true) → tableIsPermutation s.S

section
variable {s : State}

theorem State.tablePerm_of_permutation (h : tableIsPermutation s.S) : s.TablePerm := fun _ => h

/-- Outside a pass the claim is about an initialised engine only. -/
theorem State.TablePerm.withPhase {p : Phase} (hp : ∀ r, p ≠ .ksa r) (h : s.TablePerm) :
    State.TablePerm { s with phase := p } := by
  rintro (hinitd | hbusy)
  · exact h (.inl hinitd)
  · rw [State.busy_eq_false hp] at hbusy
    cases hbusy

theorem State.tablePerm_resetEdge : s.resetEdge.TablePerm := by
  rintro (hinitd | hbusy) <;> contradiction

theorem State.TablePerm.respond (h : s.TablePerm) (d : Byte) (c : RspCode) : (s.respond d c).TablePerm :=
  h.withPhase (by simp)

/-- INIT leaves the table of a pass, XFORM swaps in an initialised one, and no other command writes the table
or INITD. -/
theorem exec_keeps_tablePerm {i : Instr} {t : State} (h : s.TablePerm) (he : exec i s = .next t) :
    t.TablePerm := by
  rcases exec_cases he with
    ⟨d, c, rfl⟩ | ⟨-, rfl⟩ | ⟨b, -, -, rfl⟩ | ⟨b, -, -, rfl⟩ | ⟨-, -, rfl⟩ | ⟨d, -, hinitd, rfl⟩
  · exact h.respond d c
  · exact h.respond 0x00#8 .ok
  · exact h.respond 0x00#8 .ok
  · exact h.respond 0x00#8 .ok
  · exact State.tablePerm_of_permutation (tableIsPermutation_ksaTable _ _)
  · exact State.tablePerm_of_permutation (tableIsPermutation_swapTable _ _ (h (.inl hinitd)))

theorem State.TablePerm.passIteration {r : KsaRegs} (hp : s.phase = .ksa r) (h : s.TablePerm) :
    (s.passIteration r).TablePerm := by
  have hperm := h (.inr (State.busy_iff.2 ⟨r, hp⟩))
  apply State.tablePerm_of_permutation
  rw [State.passIteration_S]
  exact tableIsPermutation_swapTable _ _ hperm

end

/-- Settles O49: `State.TablePerm` is vacuous at reset, and each piece of a step keeps it. -/
theorem tableStaysPermutation : Obligations.TableStaysPermutation := by
  refine ⟨fun hinitd => Bool.noConfusion hinitd, fun s t h he => ?_⟩
  exact step_keeps (P := State.TablePerm) (hin := fun _ _ h => h) (hheld := fun _ _ h => h)
    (hphase := fun _ _ hp h => h.withPhase hp) (hreset := fun _ _ => State.tablePerm_resetEdge)
    (hexec := fun _ _ _ h he => exec_keeps_tablePerm h he)
    (hbegin := fun _ _ _ => State.tablePerm_of_permutation tableIsPermutation_identityTable)
    (hiter := fun _ _ hp h => h.passIteration hp) h he

/-! ## The key buffer's length (R25, R101) -/

section
variable {s : State}

/-- Below 256 the slot of the next key byte is `KLEN` itself. -/
theorem State.keySlot_toNat (h : s.KLEN < 256#9) : s.keySlot.toNat = s.KLEN.toNat := by
  have hlt : s.KLEN.toNat < 256 := h
  simp [State.keySlot, Nat.mod_eq_of_lt hlt]

theorem klen_succ_toNat {n : BitVec 9} (h : n < 256#9) : (n + 1#9).toNat = n.toNat + 1 := by
  have hlt : n.toNat < 256 := h
  rw [BitVec.toNat_add, BitVec.toNat_ofNat]
  omega

theorem klen_succ_legal {n : BitVec 9} (h : n < 256#9) : n + 1#9 ≤ 256#9 := by
  have hlt : n.toNat < 256 := h
  rw [BitVec.le_def, klen_succ_toNat h]
  exact hlt

/-- A write at the first index that may be unwritten extends the written part by one. -/
theorem writtenBelow_setAt_succ {m : Memory} {a : Byte} (v : Byte) (h : writtenBelow m a.toNat) :
    writtenBelow (setAt m a v) (a.toNat + 1) := by
  intro k hk
  rw [setAt, Memory.peek_poke]
  split
  · rfl
  · exact h k (by omega)

end

/-! ## Each piece of a step keeps the invariant -/

section
variable {s : State}

theorem State.Inv.withInputs (h : s.Inv) (x : List ClockEdge) : State.Inv { s with inputs := x } :=
  { h with pass := fun r hr => { h.pass r hr with } }

theorem State.Inv.withHeld (h : s.Inv) (x : Option Word) : State.Inv { s with held := x } :=
  { h with pass := fun r hr => { h.pass r hr with } }

/-- In a phase without a pass nothing is asked of the phase. -/
theorem State.Inv.withPhase (h : s.Inv) {p : Phase} (hp : ∀ r, p ≠ .ksa r) :
    State.Inv { s with phase := p } :=
  { h with pass := fun r hr => absurd hr (hp r) }

theorem State.Inv.respond (h : s.Inv) (d : Byte) (c : RspCode) : (s.respond d c).Inv :=
  h.withPhase (by simp)

/-- R100: an emptied key buffer asks for no key byte, and no overflow is left. -/
theorem State.Inv.emptyKey (h : s.Inv) (hp : ∀ r, s.phase ≠ .ksa r) :
    State.Inv { s with KLEN := 0#9, KOVF := false } :=
  { h with
    klenLegal := Nat.zero_le _
    overflowFull := fun hovf => by cases hovf
    keyWritten := fun k hk => absurd hk (Nat.not_lt_zero k)
    pass := fun r hr => absurd hr (hp r) }

/-- R191: reset empties the key buffer and leaves the engine neither initialised nor in a pass. -/
theorem State.Inv.resetEdge (h : s.Inv) : s.resetEdge.Inv :=
  { (h.withPhase (p := .idle) (by simp)).emptyKey (by simp) with
    tableWritten := fun hinitd => by cases hinitd
    tablePermutation := fun hinitd => by cases hinitd
    pass := fun r hr => by cases hr }

/-- KPUSH below 256 (R101): the byte stored extends the written key. -/
theorem State.Inv.respond_pushKey (h : s.Inv) (b : Byte) (hlt : s.KLEN < 256#9) :
    (State.respond { s with K := setAt s.K s.keySlot b, KLEN := s.KLEN + 1#9 } 0x00#8 .ok).Inv :=
  { h with
    keyWf := Memory.wf_setAt _ _ h.keyWf
    klenLegal := klen_succ_legal hlt
    overflowFull := fun hovf => absurd hlt (by rw [h.overflowFull hovf]; decide)
    keyWritten := by
      have hslot := State.keySlot_toNat hlt
      have hwritten : writtenBelow s.K s.keySlot.toNat := hslot ▸ h.keyWritten
      rw [State.respond_K, State.respond_KLEN, klen_succ_toNat hlt, ← hslot]
      exact writtenBelow_setAt_succ b hwritten
    pass := fun r hr => by cases hr }

/-- KPUSH at 256 (R101, R102): the overflow is set where the buffer is full. -/
theorem State.Inv.respond_overflow (h : s.Inv) (hge : ¬ s.KLEN < 256#9) :
    (State.respond { s with KOVF := true } 0x00#8 .ok).Inv :=
  { h with
    overflowFull := fun _ => BitVec.le_antisymm h.klenLegal (BitVec.not_lt.1 hge)
    pass := fun r hr => by cases hr }

/-- The end of a pass, on a table that is in canonical form, written and a permutation. -/
theorem State.Inv.endPass (h : s.Inv) :
    (State.endPass { s with S := ksaTable s.K s.KLEN.toNat }).Inv :=
  { h with
    tableWf := Memory.wf_ksaTable _ _
    tableWritten := fun _ => writtenBelow_ksaTable _ _
    tablePermutation := fun _ => tableIsPermutation_ksaTable _ _
    pass := fun r hr => by cases hr }

/-- XFORM (R120): its swap keeps what is asked of an initialised engine's table. -/
theorem State.Inv.respond_prga (h : s.Inv) (v : Byte) :
    (State.respond { s with S := (prga s.S s.I s.J).S, I := (prga s.S s.I s.J).I, J := (prga s.S s.I s.J).J }
      v .ok).Inv :=
  { h with
    tableWf := Memory.wf_swapTable _ _ h.tableWf
    tableWritten := fun hinitd => writtenBelow_swapTable _ _ (h.tableWritten hinitd)
    tablePermutation := fun hinitd => tableIsPermutation_swapTable _ _ (h.tablePermutation hinitd)
    pass := fun r hr => by cases hr }

theorem exec_keeps_inv {i : Instr} {t : State} (h : s.Inv) (he : exec i s = .next t) : t.Inv := by
  rcases exec_cases he with
    ⟨d, c, rfl⟩ | ⟨-, rfl⟩ | ⟨b, -, hlt, rfl⟩ | ⟨b, -, hge, rfl⟩ | ⟨-, -, rfl⟩ | ⟨d, -, -, rfl⟩
  · exact h.respond d c
  · exact (h.respond 0x00#8 .ok).emptyKey (by simp)
  · exact h.respond_pushKey b hlt
  · exact h.respond_overflow hge
  · exact h.endPass
  · exact h.respond_prga _

/-- R103, R109: a pass begins with a valid key, on the identity table and with INITD 0. -/
theorem State.Inv.beginPass (h : s.Inv) (hkey : s.keyInvalid = false) : s.beginPass.Inv :=
  { h with
    tableWf := Memory.wf_identityTable
    tableWritten := fun hinitd => by cases hinitd
    tablePermutation := fun hinitd => by cases hinitd
    pass := fun r hr => by
      obtain rfl := Phase.ksa.inj hr
      exact passInv_beginPass hkey }

/-- An iteration before the last keeps the invariant of the pass; the last one ends the pass. -/
theorem State.Inv.passIteration {r : KsaRegs} (hp : s.phase = .ksa r) (h : s.Inv) :
    (s.passIteration r).Inv := by
  have hpass := h.pass r hp
  by_cases hki : r.ki = 0xFF#8
  · rw [passIteration_last hpass hki]
    exact h.endPass
  · obtain ⟨r', hp', -, -, hpass'⟩ := passInv_passIteration hpass hki
    have hinitd : (s.passIteration r).INITD ≠ true := by simp [hpass'.notInitialised]
    exact
      { tableWf := by rw [State.passIteration_S]; exact Memory.wf_swapTable _ _ h.tableWf
        keyWf := by simpa using h.keyWf
        klenLegal := by simpa using h.klenLegal
        overflowFull := by simpa using h.overflowFull
        keyWritten := by simpa using h.keyWritten
        tableWritten := fun hi => absurd hi hinitd
        tablePermutation := fun hi => absurd hi hinitd
        pass := fun q hq => by
          obtain rfl := Phase.ksa.inj (hp'.symm.trans hq)
          exact hpass' }

end

/-- Settles O47: the invariant is kept by each piece a step is made of. -/
theorem stepKeepsInv : Obligations.StepKeepsInv := by
  intro s t h he
  exact step_keeps (P := State.Inv) (hin := fun _ x h => h.withInputs x) (hheld := fun _ x h => h.withHeld x)
    (hphase := fun _ _ hp h => h.withPhase hp) (hreset := fun _ h => h.resetEdge)
    (hexec := fun _ _ _ h he => exec_keeps_inv h he) (hbegin := fun _ hkey h => h.beginPass hkey)
    (hiter := fun _ _ hp h => h.passIteration hp) h he

end Sys2Proof.Machine
end

section
/-! PROOFS of the family 20_memory.md: INIT keeps the key buffer, so a second INIT does the same pass again. -/

namespace Sys2Proof.Machine

open Sys2Proof

section
variable {s t : State}

/-- R104: the key is valid when it is not empty and has not overflowed. -/
theorem State.keyInvalid_eq_false_iff : s.keyInvalid = false ↔ s.KLEN ≠ 0#9 ∧ s.KOVF = false := by
  simp [State.keyInvalid]

/-- R103: with a valid key there is one state INIT can leave, the end of the pass over that key. -/
theorem exec_init_eq_next_iff (hk : s.keyInvalid = false) :
    exec .init s = .next t ↔ t = State.endPass { s with S := ksaTable s.K s.KLEN.toNat } := by
  rw [exec, execInit_of_valid hk, Host.Outcome.next.injEq, eq_comm]

end

/-- R55, R110: the pass reads the key buffer only, which its end keeps, so from the state it left it ends in
that state again. -/
theorem exec_init_endPass {s : State} (hk : s.keyInvalid = false) :
    exec .init (State.endPass { s with S := ksaTable s.K s.KLEN.toNat }) =
      .next (State.endPass { s with S := ksaTable s.K s.KLEN.toNat }) := by
  have hk' : (State.endPass { s with S := ksaTable s.K s.KLEN.toNat }).keyInvalid = false := hk
  rw [exec_init_eq_next_iff hk', State.endPass_K, State.endPass_KLEN]
  rfl

/-- Settles O44: the state after INIT is the end of the pass, and there INIT leaves that same state. -/
theorem initIsIdempotent : Obligations.InitIsIdempotent := by
  intro s t hklen hkovf h
  have hk := State.keyInvalid_eq_false_iff.2 ⟨hklen, hkovf⟩
  obtain rfl := (exec_init_eq_next_iff hk).1 h
  exact exec_init_endPass hk

end Sys2Proof.Machine
end

section
/-! PROOFS of the family 30_encoding.md: the decoder and the encoder are inverse, what the assembler emits, the
handshake at an edge, and sequences of commands, LDKEY among them. -/

namespace Sys2Proof.Machine

open Sys2Proof

/-! ## The decoder and the encoder (R77, R78, R81 to R83) -/

/-- R81: exactly the words with the opcode of `i` and, where `i` has an operand, that operand in `imm8` decode to
`i`, in the builds that have `i`. -/
theorem decode_eq_command_iff {dbg : Bool} {w : Word} {i : Instr} :
    decode dbg w = .command i ↔
      i.wellFormed dbg = true ∧ Word.op w = i.opcode ∧ ∀ b, i.operand = some b → b = Word.imm8 w := by
  refine ⟨decode_cases, ?_⟩
  rintro ⟨hbuild, hop, himm⟩
  unfold decode
  rw [hop]
  cases i with
  | kpush b | xform d => rw [← himm _ rfl]; rfl
  | rdi | rdj =>
    obtain rfl : dbg = true := by simpa [Instr.wellFormed, Instr.isDebugRead] using hbuild
    rfl
  | rds n =>
    obtain rfl : dbg = true := by simpa [Instr.wellFormed, Instr.isDebugRead] using hbuild
    rw [← himm _ rfl]
    rfl
  | nop | kclr | init | rdstat | rdklen => rfl

/-- A word put together from an opcode and an operand byte decodes by its two fields. -/
theorem decode_append_eq_command_iff {dbg : Bool} {op b : Byte} {i : Instr} :
    decode dbg (op ++ b) = .command i ↔
      i.wellFormed dbg = true ∧ op = i.opcode ∧ ∀ c, i.operand = some c → c = b := by
  rw [decode_eq_command_iff, Laws.FormatC.op_append, Laws.FormatC.imm8_append]

theorem decode_encode {dbg : Bool} {i : Instr} (h : i.wellFormed dbg = true) :
    decode dbg (encode i) = .command i :=
  decode_append_eq_command_iff.2 ⟨h, rfl, fun c hc => by rw [hc]; rfl⟩

/-- Settles O3: the word of a command has the command's opcode and operand. -/
theorem decodeOfEncode : Obligations.DecodeOfEncode := fun _ _ h => decode_encode h

/-- Settles O4: a decoded word has the command's opcode, and its `imm8` is the operand where there is one. -/
theorem encodeOfDecode : Obligations.EncodeOfDecode := by
  intro dbg w i h
  obtain ⟨hbuild, hop, himm⟩ := decode_eq_command_iff.1 h
  refine ⟨hbuild, (Laws.FormatC.op_append _ _).trans hop.symm, fun ⟨b, hb⟩ => ?_, fun hnone => ?_⟩
  · rw [encode, hb, ← hop, Option.getD_some, himm b hb]
    exact Laws.FormatC.append_op_imm8 w
  · rw [encode, hnone, hop]
    rfl

/-- R82: no other opcode is rejected. -/
theorem reservedOp_of_decode {dbg : Bool} {w : Word} {op : Byte} (h : decode dbg w = .reserved op) :
    reservedOp dbg (Word.op w).toNat := by
  unfold decode at h
  split at h
  case h_8 hop | h_9 hop | h_10 hop =>
    have hdbg : dbg = false := by
      rw [← Bool.not_eq_true]
      rintro rfl
      cases h
    exact .inr (.inr ⟨hdbg, by omega⟩)
  case h_11 =>
    -- Every opcode that R81 names is excluded.
    simp only [imp_false] at *
    have hrange : (0x05 ≤ (Word.op w).toNat ∧ (Word.op w).toNat ≤ 0x0F) ∨ 0x15 ≤ (Word.op w).toNat := by
      omega
    exact hrange.imp_right .inl
  all_goals cases h

/-- Settles O5: a reserved opcode is rejected, and no other is. -/
theorem reservedWordsExactly : Obligations.ReservedWordsExactly :=
  fun _ _ => ⟨reservedOp_of_decode, decode_of_reservedOp⟩

theorem decode_append_of_reservedOp {dbg : Bool} {op : Byte} (b : Byte) (h : reservedOp dbg op.toNat) :
    decode dbg (op ++ b) = .reserved op := by
  have hop := Laws.FormatC.op_append op b
  rw [← hop] at h
  rw [decode_of_reservedOp h, hop]

/-- Settles O1: each row is the opcode and the operand of its command. -/
theorem opcodeMap : Obligations.OpcodeMap := by
  intro b
  simp only [decode_append_eq_command_iff]
  refine ⟨fun dbg => ?_, ?_, ?_, ?_, decode_append_of_reservedOp b (by decide),
    decode_append_of_reservedOp b (by decide), decode_append_of_reservedOp b (by decide)⟩
  all_goals simp [Instr.wellFormed, Instr.isDebugRead, Instr.opcode, Instr.operand]

/-- Settles O2: eight fixed words. -/
theorem specWordsDecode : Obligations.SpecWordsDecode := by
  unfold Obligations.SpecWordsDecode
  decide

/-- Settles O30: the codes as R80 lists them. -/
theorem responseCodeValues : Obligations.ResponseCodeValues := ⟨rfl, rfl, rfl, rfl⟩

/-! ## The assembler's operand rules (R85) -/

/-- The mnemonic of a command without an operand takes none. -/
theorem assembleCommand_plain {i : Instr} (h : i.operand = none) (ops : List Nat) :
    assembleCommand (mnemonicOf i) ops = assemblePlain i ops := by
  cases i with
  | kpush b | xform d | rds n => cases h
  | nop | kclr | init | rdstat | rdklen | rdi | rdj => rfl

/-- The mnemonic of a command with an operand takes one byte, which becomes that operand. -/
theorem assembleCommand_byte {i : Instr} {b : Byte} (h : i.operand = some b) :
    ∃ mk : Byte → Instr, mk b = i ∧ ∀ ops, assembleCommand (mnemonicOf i) ops = assembleByte mk ops := by
  cases i with
  | kpush c | xform c | rds c =>
    cases h
    exact ⟨_, rfl, fun _ => rfl⟩
  | nop | kclr | init | rdstat | rdklen | rdi | rdj => cases h

theorem operandByte_toNat (b : Byte) : operandByte b.toNat = .ok b := by
  rw [operandByte, if_pos b.isLt, BitVec.ofNat_toNat, BitVec.setWidth_eq]

theorem operandByte_of_le {n : Nat} (h : 256 ≤ n) : operandByte n = .error .outOfRange :=
  if_neg (Nat.not_lt.2 h)

/-- Settles O6: a mnemonic assembles as `assemblePlain` or as `assembleByte`, by the command's operand. -/
theorem assemblerOperandRules : Obligations.AssemblerOperandRules := by
  intro i
  refine ⟨fun b hb => ?_, fun hnone => assembleCommand_plain hnone [],
    fun hnone n => assembleCommand_plain hnone [n], fun ⟨b, hb⟩ n hn => ?_⟩
  · obtain ⟨mk, rfl, hmk⟩ := assembleCommand_byte hb
    rw [hmk, assembleByte, operandByte_toNat]
    rfl
  · obtain ⟨mk, -, hmk⟩ := assembleCommand_byte hb
    rw [hmk, assembleByte, operandByte_of_le hn]
    rfl

/-! ## The handshake (R72 to R76) -/

/-- Settles O8: `withFetchWord` is an idle engine at an edge that presents the word and completes it. -/
theorem fetchedWordRuns : Obligations.FetchedWordRuns := by
  intro s i hbuild
  rw [State.withFetchWord, Nat.mod_eq_of_lt (encode i).isLt, BitVec.ofNat_toNat, BitVec.setWidth_eq,
    step_idle_finish (State.withCommand_inputs s _) rfl rfl (.inl rfl) rfl rfl]
  exact State.complete_of_command (decode_encode hbuild)

theorem State.cmdReady_iff {s : State} {rst : Bool} : s.cmdReady rst = true ↔ s.phase = .idle ∧ rst = false := by
  unfold State.cmdReady
  cases rst <;> cases s.phase <;> simp

theorem State.rspPort_eq_some_iff {s : State} {rst : Bool} {r : Response} :
    s.rspPort rst = some r ↔ s.phase = .resp r ∧ rst = false := by
  unfold State.rspPort
  cases rst <;> cases s.phase <;> simp

/-- Settles O9: the three outputs are read off the phase, where `rst` is 0. -/
theorem handshakeOutputs : Obligations.HandshakeOutputs := by
  intro s rst
  refine ⟨State.cmdReady_iff, fun r => State.rspPort_eq_some_iff, ?_⟩
  simp only [State.rspValid, Option.isSome_iff_exists, State.rspPort_eq_some_iff, exists_and_right]

section
variable {s t : State} (x : Option Word)

/-! The word the host owes has no part in what happens to a command in flight. -/

theorem State.passIteration_with_held (r : KsaRegs) :
    State.passIteration { s with held := x } r = { s.passIteration r with held := x } := by
  rw [State.passIteration_eq, State.passIteration_eq]
  dsimp only
  split <;> rfl

theorem State.passIterations_with_held (n : Nat) :
    State.passIterations n { s with held := x } = { s.passIterations n with held := x } := by
  induction n generalizing s with
  | zero => rfl
  | succ n ih =>
    simp only [State.passIterations]
    split
    · rw [State.passIteration_with_held, ih]
    all_goals rfl

theorem State.complete_with_held {w : Word} (h : s.complete w = .next t) :
    State.complete w { s with held := x } = .next { t with held := x } := by
  obtain ⟨-, -, hin⟩ := State.complete_frame h
  simpa only [← hin] using State.complete_with_host x s.inputs h

theorem State.advance_exec_with_held {p : Pace} {w : Word} (hp : s.phase = .exec w)
    (h : s.advance p = .next t) : State.advance p { s with held := x } = .next { t with held := x } := by
  have hp' : State.phase { s with held := x } = .exec w := hp
  cases p with
  | wait =>
    rw [State.advance_wait] at h ⊢
    cases h
    rfl
  | finish =>
    rw [State.advance_exec_finish hp] at h
    exact (State.advance_exec_finish hp').trans (State.complete_with_held x h)
  | work =>
    rw [State.advance_exec_work hp] at h
    rw [State.advance_exec_work hp']
    by_cases hs : s.startsPass w = true
    · rw [if_pos hs] at h
      cases h
      exact if_pos hs
    · rw [if_neg hs] at h
      exact (if_neg hs).trans (State.complete_with_held x h)

theorem State.advance_ksa_with_held {p : Pace} {r : KsaRegs} (hp : s.phase = .ksa r)
    (h : s.advance p = .next t) : State.advance p { s with held := x } = .next { t with held := x } := by
  have hp' : State.phase { s with held := x } = .ksa r := hp
  cases p with
  | wait =>
    rw [State.advance_wait] at h ⊢
    cases h
    rfl
  | work =>
    rw [State.advance_ksa_work hp] at h
    rw [State.advance_ksa_work hp', State.passIteration_with_held]
    cases h
    rfl
  | finish =>
    rw [State.advance_ksa_finish hp] at h
    rw [State.advance_ksa_finish hp', State.passIterations_with_held]
    cases h
    rfl

theorem State.advance_inFlight_with_held {p : Pace} (hf : s.inFlight) (h : s.advance p = .next t) :
    State.advance p { s with held := x } = .next { t with held := x } := by
  rcases hf with ⟨w, hp⟩ | ⟨r, hp⟩
  · exact State.advance_exec_with_held x hp h
  · exact State.advance_ksa_with_held x hp h

end

theorem State.clockEdge_inFlight {s : State} {e : ClockEdge} (hr : e.rst = false)
    (hb : s.handshakeBroken e = false) (hf : s.inFlight) :
    s.clockEdge e = State.advance e.pace { s with held := e.presented } := by
  rcases hf with ⟨w, hp⟩ | ⟨r, hp⟩
  · exact State.clockEdge_exec hr hb hp
  · exact State.clockEdge_ksa hr hb hp

/-- R72, R73: outside IDLE what an edge presents on the command port is remembered, and does nothing else. -/
theorem State.clockEdge_of_same_but_command {s t : State} {e f : ClockEdge} (hidle : s.phase ≠ .idle)
    (hrst : e.rst = f.rst) (hready : e.rspReady = f.rspReady) (hpace : e.pace = f.pace)
    (he : s.handshakeBroken e = false) (hf : s.handshakeBroken f = false) (h : s.clockEdge e = .next t) :
    s.clockEdge f = .next { t with held := f.presented } := by
  rcases State.clockEdge_cases h with
    ⟨hbroken, -⟩ | ⟨hr, -, h1⟩ | ⟨hr, -, ⟨hp, -⟩ | ⟨hp, -⟩ | ⟨hfl, h1⟩ | ⟨r, hp, h1⟩⟩
  · rw [he] at hbroken
    cases hbroken
  · cases h1
    exact State.clockEdge_reset (hrst ▸ hr) hf
  · exact absurd hp hidle
  · exact absurd hp hidle
  · rw [State.clockEdge_inFlight (hrst ▸ hr) hf hfl, ← hpace]
    exact State.advance_inFlight_with_held (s := { s with held := e.presented }) f.presented hfl h1
  · cases h1
    rw [State.clockEdge_resp (hrst ▸ hr) hf hp, hready]

/-- Settles O10: the two next states agree but for the word each edge presents. -/
theorem commandPortIgnoredUnlessIdle : Obligations.CommandPortIgnoredUnlessIdle :=
  fun _ _ _ _ hidle hrst hready hpace he hf h =>
    ⟨_, State.clockEdge_of_same_but_command hidle hrst hready hpace he hf h, rfl⟩

/-- Settles O11: the edge is one in the phase RESP, where `rsp_ready` alone decides the next phase. -/
theorem responseHeldUntilTaken : Obligations.ResponseHeldUntilTaken := by
  intro s e rest r hin hrst hheld hp
  have hb := State.handshakeBroken_eq_false (s := { s with inputs := rest }) hheld
  rw [step_of_inputs hin, State.clockEdge_resp hrst hb hp]
  refine ⟨fun hready => ?_, fun hready => ?_⟩
  · simp [hready, ← hp]
  · simp [hready]

theorem ClockEdge.presented_eq_some_iff {e : ClockEdge} {w : Word} :
    e.presented = some w ↔ e.cmdValid = true ∧ e.cmdWord = w := by
  simp [ClockEdge.presented]

/-- R72: the handshake is broken where the host owes a word and does not present it. -/
theorem State.handshakeBroken_of_held {s : State} {e : ClockEdge} {w : Word} (hheld : s.held = some w) :
    s.handshakeBroken e = true ↔ (e.cmdValid = false ∨ e.cmdWord ≠ w) := by
  simp only [State.handshakeBroken, hheld, decide_eq_true_eq, ne_eq, ClockEdge.presented_eq_some_iff,
    Classical.not_and_iff_not_or_not, Bool.not_eq_true]

/-- Settles O12: such an edge breaks the handshake, and every edge that does is refused. -/
theorem brokenHandshakeRefused : Obligations.BrokenHandshakeRefused := by
  intro s e rest w hin hheld hbreach
  rw [step_of_inputs hin]
  exact State.clockEdge_broken ((State.handshakeBroken_of_held hheld).2 hbreach)

/-! ## Sequences of commands (R75) -/

section
variable {s t u : State}

theorem State.transact_ready (h : s.ready) (w : Word) : ∃ t r, transact w s = some (t, r) ∧ t.ready := by
  obtain ⟨t, r, ht, -, htransact⟩ := transact_of_ready h w
  obtain ⟨-, hheld, -⟩ := State.complete_frame ht
  exact ⟨_, r, htransact, rfl, hheld.trans h.2⟩

theorem session_cons {w : Word} {ws : List Word} {r : Response} {rs : List Response}
    (h : transact w s = some (t, r)) (hs : session ws t = some (u, rs)) :
    session (w :: ws) s = some (u, r :: rs) := by
  simp only [session, h, hs]

theorem session_singleton {w : Word} {r : Response} (h : transact w s = some (t, r)) :
    session [w] s = some (t, [r]) :=
  session_cons h rfl

/-- A sequence in two pieces is the second piece after the first. -/
theorem session_append {ws vs : List Word} {rs qs : List Response} (h : session ws s = some (t, rs))
    (hs : session vs t = some (u, qs)) : session (ws ++ vs) s = some (u, rs ++ qs) := by
  induction ws generalizing s rs with
  | nil => cases h; exact hs
  | cons w ws ih =>
    simp only [session] at h
    split at h
    · cases h
    · next s1 r hr =>
      split at h
      · cases h
      · next s2 rs' hrs =>
        cases h
        exact session_cons hr (ih hrs)

end

/-- Settles O57: a ready engine answers each command and is ready for the next. -/
theorem oneResponsePerCommand : Obligations.OneResponsePerCommand := by
  intro ws s h
  induction ws generalizing s with
  | nil => exact ⟨s, [], rfl, rfl, h⟩
  | cons w ws ih =>
    obtain ⟨t, r, hr, ht⟩ := State.transact_ready h w
    obtain ⟨u, rs, hrs, hlen, hu⟩ := ih t ht
    exact ⟨u, r :: rs, session_cons hr hrs, congrArg Nat.succ hlen, hu⟩

/-! ## The commands of LDKEY on a ready engine (R86, R100, R101, R103, R104) -/

section
variable {s t : State}

/-- A command on a ready engine is `exec` of it, and the response it leaves is the host's. -/
theorem transact_encode {i : Instr} {r : Response} (h : s.ready) (hbuild : i.wellFormed s.debugRead = true)
    (he : exec i { s with phase := .exec (encode i), inputs := [ClockEdge.take] } = .next t)
    (hr : t.phase = .resp r) :
    transact (encode i) s = some ({ t with phase := .idle, inputs := [] }, r) := by
  obtain ⟨u, q, hu, hq, htransact⟩ := transact_of_ready h (encode i)
  have hexec := State.complete_of_command
    (s := { s with phase := .exec (encode i), inputs := [ClockEdge.take] }) (decode_encode hbuild)
  obtain rfl := Host.Outcome.next.inj (hu.symm.trans (hexec.trans he))
  obtain rfl := Phase.resp.inj (hq.symm.trans hr)
  exact htransact

theorem wellFormed_of_not_isDebugRead {i : Instr} {dbg : Bool} (h : i.isDebugRead = false) :
    i.wellFormed dbg = true := by
  simp [Instr.wellFormed, h]

theorem exec_kpush_of_lt (b : Byte) (h : s.KLEN < 256#9) :
    exec (.kpush b) s =
      .next (State.respond { s with K := setAt s.K s.keySlot b, KLEN := s.KLEN + 1#9 } 0x00#8 .ok) :=
  if_pos h

theorem exec_kpush_of_full (b : Byte) (h : ¬ s.KLEN < 256#9) :
    exec (.kpush b) s = .next (State.respond { s with KOVF := true } 0x00#8 .ok) :=
  if_neg h

theorem transact_kclr (h : s.ready) :
    transact (encode .kclr) s =
      some ({ s with KLEN := 0#9, KOVF := false, phase := .idle, inputs := [] }, ⟨0x00#8, .ok⟩) :=
  (transact_encode h (wellFormed_of_not_isDebugRead rfl) rfl rfl).trans rfl

theorem transact_kpush_of_lt (b : Byte) (h : s.ready) (hlt : s.KLEN < 256#9) :
    transact (encode (.kpush b)) s =
      some ({ s with K := setAt s.K s.keySlot b, KLEN := s.KLEN + 1#9, phase := .idle, inputs := [] },
        ⟨0x00#8, .ok⟩) :=
  (transact_encode h (wellFormed_of_not_isDebugRead rfl) (exec_kpush_of_lt b hlt) rfl).trans rfl

theorem transact_kpush_of_full (b : Byte) (h : s.ready) (hfull : ¬ s.KLEN < 256#9) :
    transact (encode (.kpush b)) s =
      some ({ s with KOVF := true, phase := .idle, inputs := [] }, ⟨0x00#8, .ok⟩) :=
  (transact_encode h (wellFormed_of_not_isDebugRead rfl) (exec_kpush_of_full b hfull) rfl).trans rfl

theorem transact_init_of_valid (h : s.ready) (hk : s.keyInvalid = false) :
    transact (encode .init) s =
      some ({ s with S := ksaTable s.K s.KLEN.toNat, I := 0x00#8, J := 0x00#8, INITD := true,
                     phase := .idle, inputs := [] }, ⟨0x00#8, .ok⟩) :=
  (transact_encode (i := .init) h (wellFormed_of_not_isDebugRead rfl) (execInit_of_valid hk) rfl).trans rfl

theorem transact_init_of_invalid (h : s.ready) (hk : s.keyInvalid = true) :
    transact (encode .init) s = some ({ s with phase := .idle, inputs := [] }, ⟨0x00#8, .invalidKey⟩) :=
  (transact_encode (i := .init) h (wellFormed_of_not_isDebugRead rfl) (execInit_of_invalid hk) rfl).trans rfl

end

/-- `t` is where KCLR and then a KPUSH of each byte of `key` bring a ready engine `s`: a byte pushed on a full
buffer is dropped and the overflow is set (R101), and the running keystream is as it was (R35). -/
structure State.KeyPushed (s : State) (key : List Byte) (t : State) : Prop where
  ready : t.ready
  keystream : t.S = s.S ∧ t.I = s.I ∧ t.J = s.J ∧ t.INITD = s.INITD
  klen : t.KLEN.toNat = min key.length 256
  kovf : t.KOVF = decide (256 < key.length)
  bytes : ∀ n (h : n < key.length), n < 256 → keyAt t.K (BitVec.ofNat 8 n) = key[n]

section
variable {s t : State} {key : List Byte}

theorem State.keyPushed_nil (h : s.ready) :
    State.KeyPushed s [] { s with KLEN := 0#9, KOVF := false, phase := .idle, inputs := [] } where
  ready := ⟨rfl, h.2⟩
  keystream := ⟨rfl, rfl, rfl, rfl⟩
  klen := rfl
  kovf := rfl
  bytes n hn := absurd hn (Nat.not_lt_zero n)

/-- INIT's check (R104) rejects the empty key and the over-long one. -/
theorem State.KeyPushed.keyInvalid_eq_false_iff (h : s.KeyPushed key t) :
    t.keyInvalid = false ↔ 1 ≤ key.length ∧ key.length ≤ 256 := by
  have hzero : t.KLEN = 0#9 ↔ t.KLEN.toNat = 0 := BitVec.toNat_eq
  rw [State.keyInvalid_eq_false_iff, ne_eq, hzero, h.klen, h.kovf, decide_eq_false_iff_not]
  omega

/-- R101 below 256: the byte is stored after the others. -/
theorem State.KeyPushed.push_of_lt (b : Byte) (h : s.KeyPushed key t) (hlt : t.KLEN < 256#9) :
    State.KeyPushed s (key ++ [b])
      { t with K := setAt t.K t.keySlot b, KLEN := t.KLEN + 1#9, phase := .idle, inputs := [] } := by
  have hklen := h.klen
  have hlt256 : t.KLEN.toNat < 256 := hlt
  have hslot := State.keySlot_toNat hlt
  refine ⟨⟨rfl, h.ready.2⟩, h.keystream, ?_, ?_, fun n hn hn256 => ?_⟩
  · rw [klen_succ_toNat hlt, List.length_append, List.length_singleton]
    omega
  · rw [h.kovf, List.length_append, List.length_singleton, decide_eq_decide]
    omega
  · have hn8 : (BitVec.ofNat 8 n).toNat = n := by rw [BitVec.toNat_ofNat, Nat.mod_eq_of_lt hn256]
    rw [List.length_append, List.length_singleton] at hn
    rw [keyAt_setAt]
    by_cases hnew : n = key.length
    · subst hnew
      have heq : BitVec.ofNat 8 key.length = t.keySlot := BitVec.eq_of_toNat_eq (by omega)
      rw [if_pos heq, List.getElem_concat_length rfl]
    · have hne : BitVec.ofNat 8 n ≠ t.keySlot := fun heq => by
        rw [heq] at hn8
        omega
      rw [if_neg hne, List.getElem_append_left (by omega)]
      exact h.bytes n (by omega) hn256

/-- R101 at 256: the byte is dropped, and the overflow is set. -/
theorem State.KeyPushed.push_of_full (b : Byte) (h : s.KeyPushed key t) (hfull : ¬ t.KLEN < 256#9) :
    State.KeyPushed s (key ++ [b]) { t with KOVF := true, phase := .idle, inputs := [] } := by
  have hklen := h.klen
  have hge256 : ¬ t.KLEN.toNat < 256 := hfull
  refine ⟨⟨rfl, h.ready.2⟩, h.keystream, ?_, ?_, fun n hn hn256 => ?_⟩
  · rw [List.length_append, List.length_singleton]
    change t.KLEN.toNat = _
    omega
  · rw [List.length_append, List.length_singleton, eq_comm, decide_eq_true_eq]
    omega
  · rw [List.getElem_append_left (by omega)]
    exact h.bytes n (by omega) hn256

theorem State.KeyPushed.transact_kpush (b : Byte) (h : s.KeyPushed key t) :
    ∃ u, transact (encode (.kpush b)) t = some (u, ⟨0x00#8, .ok⟩) ∧ s.KeyPushed (key ++ [b]) u := by
  by_cases hlt : t.KLEN < 256#9
  · exact ⟨_, transact_kpush_of_lt b h.ready hlt, h.push_of_lt b hlt⟩
  · exact ⟨_, transact_kpush_of_full b h.ready hlt, h.push_of_full b hlt⟩

theorem State.KeyPushed.session_kpush (bytes : List Byte) (h : s.KeyPushed key t) :
    ∃ u rs, session (bytes.map fun b => encode (.kpush b)) t = some (u, rs) ∧
      (∀ r ∈ rs, r = ⟨0x00#8, .ok⟩) ∧ s.KeyPushed (key ++ bytes) u := by
  induction bytes generalizing key t with
  | nil => exact ⟨t, [], rfl, by simp, by simpa using h⟩
  | cons b bytes ih =>
    obtain ⟨v, hv, hpushed⟩ := h.transact_kpush b
    obtain ⟨u, rs, hsession, hok, hu⟩ := ih hpushed
    exact ⟨u, _, session_cons hv hsession, List.forall_mem_cons.2 ⟨rfl, hok⟩, by simpa using hu⟩

end

/-- LDKEY up to its INIT, from any ready engine. -/
theorem session_kclr_kpush (key : List Byte) {s : State} (h : s.ready) :
    ∃ t rs, session (encode .kclr :: key.map fun b => encode (.kpush b)) s = some (t, rs) ∧
      (∀ r ∈ rs, r = ⟨0x00#8, .ok⟩) ∧ s.KeyPushed key t := by
  obtain ⟨t, rs, hsession, hok, ht⟩ := (State.keyPushed_nil h).session_kpush key
  exact ⟨t, _, session_cons (transact_kclr h) hsession, List.forall_mem_cons.2 ⟨rfl, hok⟩, ht⟩

/-- Settles O45: the pushes leave `State.KeyPushed`, from which INIT either runs the pass or rejects the key. -/
theorem ldkeyLoadsTheKey : Obligations.LdkeyLoadsTheKey := by
  intro key s h
  obtain ⟨t, rs, hpush, hok, ht⟩ := session_kclr_kpush key h
  have hvalid := ht.keyInvalid_eq_false_iff
  cases hk : t.keyInvalid with
  | false =>
    obtain ⟨hpos, hle⟩ := hvalid.1 hk
    have hlen : t.KLEN.toNat = key.length := ht.klen.trans (Nat.min_eq_left hle)
    have hinit := session_singleton (transact_init_of_valid ht.ready hk)
    refine ⟨_, _, session_append hpush hinit, ⟨rfl, ht.ready.2⟩, fun _ _ => ?_, fun hbad => by omega⟩
    exact ⟨List.forall_mem_append.2 ⟨hok, List.forall_mem_singleton.2 rfl⟩, hlen,
      (State.keyInvalid_eq_false_iff.1 hk).2, rfl, rfl, rfl, by rw [hlen],
      fun n hn => ht.bytes n hn (by omega)⟩
  | true =>
    have hbad : ¬ (1 ≤ key.length ∧ key.length ≤ 256) := fun hlen => by simp [hvalid.2 hlen] at hk
    have hinit := session_singleton (transact_init_of_invalid ht.ready hk)
    exact ⟨_, _, session_append hpush hinit, ⟨rfl, ht.ready.2⟩,
      fun hpos hle => absurd ⟨hpos, hle⟩ hbad, fun _ => ⟨List.getLast?_concat, ht.keystream⟩⟩

end Sys2Proof.Machine
end

section
/-! PROOFS of the family 40_key_schedule.md: what KCLR, KPUSH and INIT do, the key-scheduling pass as the source's
loop, what its table depends on, and the pass edge by edge. -/

namespace Sys2Proof.Machine

open Sys2Proof

/-! ## KCLR and KPUSH (R100, R101) -/

/-- R78, R81: a word with the opcode of a command every build has, and with its operand where it takes one, completes
as that command. -/
theorem State.complete_opcode_append {s : State} {i : Instr} {b : Byte} (hbuild : i.isDebugRead = false)
    (hoperand : ∀ c, i.operand = some c → c = b) : s.complete (i.opcode ++ b) = exec i s :=
  State.complete_of_command
    (decode_append_eq_command_iff.2 ⟨wellFormed_of_not_isDebugRead hbuild, rfl, hoperand⟩)

/-- Settles O19: KCLR ignores its `imm8`, and STATUS bits 2 and 3 are read off the cleared registers. -/
theorem kclrResult : Obligations.KclrResult := by
  intro s
  refine ⟨_, rfl, rfl, fun b => ?_, State.statusReg_kovf _, ?_⟩
  · exact State.complete_opcode_append (i := .kclr) rfl (by simp [Instr.operand])
  · exact (State.statusReg_kfull _).trans (by simp [State.kfull])

/-- Settles O20: below 256 one write at the key slot, which is `KLEN`; at 256 no write. -/
theorem kpushResult : Obligations.KpushResult := by
  intro b s
  refine ⟨?_, fun hlt => ?_, fun hfull => ?_⟩
  · exact State.complete_opcode_append (i := .kpush b) rfl (by simp [Instr.operand])
  · refine ⟨_, exec_kpush_of_lt b hlt, State.keySlot_toNat hlt, ?_, fun n hne => ?_⟩
    · rw [keyAt_setAt, if_pos rfl]
    · rw [keyAt_setAt, if_neg hne]
  · exact exec_kpush_of_full b (by rw [hfull]; decide)

/-! ## A full buffer behind every overflow (R25, R101, R102) -/

/-- The key length is legal (R25), and the overflow is set only on a full buffer (R102). -/
def State.OverflowOnlyWhenFull (s : State) : Prop := s.KLEN ≤ 256#9 ∧ (s.KOVF = true → s.KLEN = 256#9)

section
variable {s t : State}

theorem State.overflowOnlyWhenFull_of_empty (hklen : s.KLEN = 0#9) (hkovf : s.KOVF = false) :
    s.OverflowOnlyWhenFull := by
  refine ⟨hklen ▸ Nat.zero_le _, fun hovf => ?_⟩
  rw [hkovf] at hovf
  cases hovf

/-- KCLR clears both registers, KPUSH counts up below 256 and sets the overflow at 256 only, and no other command
writes either. -/
theorem exec_keeps_overflowOnlyWhenFull {i : Instr} (h : s.OverflowOnlyWhenFull) (he : exec i s = .next t) :
    t.OverflowOnlyWhenFull := by
  obtain ⟨hlegal, hfull⟩ := h
  rcases exec_cases he with
    ⟨d, c, rfl⟩ | ⟨-, rfl⟩ | ⟨b, -, hlt, rfl⟩ | ⟨b, -, hge, rfl⟩ | ⟨-, -, rfl⟩ | ⟨d, -, -, rfl⟩
  · exact ⟨hlegal, hfull⟩
  · exact State.overflowOnlyWhenFull_of_empty rfl rfl
  · exact ⟨klen_succ_legal hlt, fun hovf => absurd hlt (by rw [hfull hovf]; decide)⟩
  · exact ⟨hlegal, fun _ => BitVec.le_antisymm hlegal (BitVec.not_lt.1 hge)⟩
  · exact ⟨hlegal, hfull⟩
  · exact ⟨hlegal, hfull⟩

theorem State.OverflowOnlyWhenFull.passIteration (r : KsaRegs) (h : s.OverflowOnlyWhenFull) :
    (s.passIteration r).OverflowOnlyWhenFull := by
  simpa only [State.OverflowOnlyWhenFull, State.passIteration_KLEN, State.passIteration_KOVF] using h

/-- R102: where an overflow means a full buffer, INIT's check meets an empty key, an over-long key, or neither. -/
theorem State.keyCheck_cases (h : s.KOVF = true → s.KLEN = 256#9) :
    (s.KLEN = 0#9 ∧ s.KOVF = false) ∨ (s.KLEN = 256#9 ∧ s.KOVF = true) ∨ (s.KLEN ≠ 0#9 ∧ s.KOVF = false) := by
  rcases Bool.eq_false_or_eq_true s.KOVF with hovf | hovf
  · exact .inr (.inl ⟨h hovf, hovf⟩)
  · rcases eq_or_ne s.KLEN 0#9 with hzero | hne
    · exact .inl ⟨hzero, hovf⟩
    · exact .inr (.inr ⟨hne, hovf⟩)

end

/-- Settles O48: each piece of a step keeps `State.OverflowOnlyWhenFull`, a reset edge by emptying the buffer. -/
theorem overflowImpliesFull : Obligations.OverflowImpliesFull := by
  refine ⟨fun hovf => Bool.noConfusion hovf, fun s t hlegal hfull he => ?_, fun s => State.keyCheck_cases⟩
  exact step_keeps (P := State.OverflowOnlyWhenFull) (hin := fun _ _ h => h) (hheld := fun _ _ h => h)
    (hphase := fun _ _ _ h => h) (hreset := fun _ _ => State.overflowOnlyWhenFull_of_empty rfl rfl)
    (hexec := fun _ _ _ h he => exec_keeps_overflowOnlyWhenFull h he) (hbegin := fun _ _ h => h)
    (hiter := fun _ r _ h => h.passIteration r) ⟨hlegal, hfull⟩ he

/-! ## INIT as one command (R103, R104, R108, R110) -/

theorem State.keyInvalid_eq_true_iff {s : State} : s.keyInvalid = true ↔ s.KLEN = 0#9 ∨ s.KOVF = true := by
  simp [State.keyInvalid]

/-- R104: with an invalid key no word starts a pass. -/
theorem State.startsPass_of_invalid {s : State} (hk : s.keyInvalid = true) (w : Word) : s.startsPass w = false := by
  rw [← Bool.not_eq_true, State.startsPass_iff, hk]
  simp

/-- Settles O21: the key check alone decides between the error and the pass. -/
theorem initRejectsBadKey : Obligations.InitRejectsBadKey := by
  refine fun s => ⟨fun hbad => ?_, fun hklen hkovf => ?_⟩
  · have hk := State.keyInvalid_eq_true_iff.2 hbad
    exact ⟨execInit_of_invalid hk, State.startsPass_of_invalid hk⟩
  · have hk := State.keyInvalid_eq_false_iff.2 ⟨hklen, hkovf⟩
    exact ⟨State.startsPass_iff.2 ⟨decode_encode (wellFormed_of_not_isDebugRead rfl), hk⟩,
      _, execInit_of_valid hk, State.endPass_phase _⟩

/-- Settles O22: INIT ignores its `imm8` and leaves the end of the pass over its key. -/
theorem initResult : Obligations.InitResult := by
  refine fun s hklen hkovf => ⟨fun b => ?_, ?_⟩
  · exact State.complete_opcode_append (i := .init) rfl (by simp [Instr.operand])
  · exact execInit_of_valid (State.keyInvalid_eq_false_iff.2 ⟨hklen, hkovf⟩)

/-! ## The pass is the source's loop, and what its table depends on (R105, R107) -/

/-- Settles O23: the identity fill, then one swap an iteration at the index R105 forms. -/
theorem ksaFollowsTheSource : Obligations.KsaFollowsTheSource := by
  intro K klen _ _
  refine ⟨tableAt_identityTable, rfl, ?_, fun n hn => ?_⟩
  · rintro n _ ki j' rfl rfl
    rw [ksaRounds_succ]
    exact ⟨rfl, tableAt_swapTable_left _ _ _, tableAt_swapTable_right _ _ _,
      fun m hki hj => tableAt_swapTable_of_ne _ hki hj⟩
  · rw [ksaTable, passLength_eq, hn]

/-- Two keys whose bytes agree at every iteration's key index give the same table. -/
theorem ksaTable_congr {K K' : Memory} {klen klen' : Nat}
    (h : ∀ k, k < 256 → keyAt K (BitVec.ofNat 8 (k % klen)) = keyAt K' (BitVec.ofNat 8 (k % klen'))) :
    ksaTable K klen = ksaTable K' klen' := by
  rw [← passLength_eq] at h
  exact congrArg Prod.fst (ksaRounds_congr h)

/-- R107 (b): the key bytes from `klen` on are not read. -/
theorem ksaTable_eq_of_eq_below {K K' : Memory} {klen : Nat} (hpos : 0 < klen)
    (h : ∀ n : Byte, n.toNat < klen → keyAt K n = keyAt K' n) : ksaTable K klen = ksaTable K' klen := by
  refine ksaTable_congr fun k _ => h _ ?_
  calc (BitVec.ofNat 8 (k % klen)).toNat
      _ = k % klen % 2 ^ 8 := BitVec.toNat_ofNat _ _
      _ ≤ k % klen := Nat.mod_le _ _
      _ < klen := Nat.mod_lt _ hpos

/-- Settles O41: every swap of the pass permutes, from the identity on. -/
theorem initGivesPermutation : Obligations.InitGivesPermutation := by
  intro s hklen hkovf
  have hk := State.keyInvalid_eq_false_iff.2 ⟨hklen, hkovf⟩
  exact ⟨_, execInit_of_valid hk, State.endPass_INITD _, tableIsPermutation_ksaTable _ _⟩

/-- Settles O42: both states end a pass over the same key, and the end of a pass writes fixed values. -/
theorem initDependsOnKeyOnly : Obligations.InitDependsOnKeyOnly := by
  intro s t s' hklen hkovf htklen htkovf hbytes he
  have hs := State.keyInvalid_eq_false_iff.2 ⟨hklen, hkovf⟩
  have ht : t.keyInvalid = false :=
    State.keyInvalid_eq_false_iff.2 ⟨htklen ▸ hklen, htkovf.trans hkovf⟩
  obtain rfl := (exec_init_eq_next_iff hs).1 he
  have htable : ksaTable t.K t.KLEN.toNat = ksaTable s.K s.KLEN.toNat := by
    rw [htklen]
    exact ksaTable_eq_of_eq_below (State.klen_pos hs) hbytes
  refine ⟨_, execInit_of_valid ht, htable, ?_⟩
  simp only [State.endPass_I, State.endPass_J, State.endPass_INITD, State.endPass_phase, and_self]

/-- Settles O43: at every iteration the index into the repetition, cut to the key's length, is the index into the
key. -/
theorem repeatedKeySameTable : Obligations.RepeatedKeySameTable := by
  intro K K' p q hp hpq _ hrepeat hbytes
  refine ksaTable_congr fun k hk => ?_
  have hindex : k % q % p = k % p := by
    rcases hrepeat with hdvd | rfl
    · exact Nat.mod_mod_of_dvd k hdvd
    · rw [Nat.mod_eq_of_lt hk]
  rw [hbytes _ (Nat.mod_lt k (hp.trans hpq)), hindex]

/-! ## The pass edge by edge, one unit of work an edge (R105, R109; log 3) -/

/-- The last of `n + 1` steps, where the first `n` answer a next state. -/
theorem State.steps_succ_of_steps {n : Nat} {s t : State} (h : s.steps n = .next t) :
    s.steps (n + 1) = step t := by
  induction n generalizing s with
  | zero =>
    cases h
    simp only [State.steps]
    cases step t <;> rfl
  | succ n ih =>
    rw [State.steps] at h ⊢
    split at h
    · exact ih h
    · cases h
    · cases h

section
variable {s : State} {e : ClockEdge} {rest : List ClockEdge} (hin : s.inputs = e :: rest) (hrst : e.rst = false)
  (hpace : e.pace = .work) (hheld : s.held = none ∨ s.held = e.presented)
include hin hrst hpace hheld

/-- An INIT with a valid key begins its pass. -/
theorem step_exec_work_of_startsPass {w : Word} (hp : s.phase = .exec w) (hw : s.startsPass w = true) :
    step s = .next (State.beginPass { s with inputs := rest, held := e.presented }) := by
  have hb := State.handshakeBroken_eq_false (s := { s with inputs := rest }) hheld
  rw [step_of_inputs hin, State.clockEdge_exec hrst hb hp, hpace]
  exact (State.advance_exec_work (s := { s with inputs := rest, held := e.presented }) hp).trans (if_pos hw)

/-- A running pass does one iteration. -/
theorem step_ksa_work {r : KsaRegs} (hp : s.phase = .ksa r) :
    step s = .next (State.passIteration { s with inputs := rest, held := e.presented } r) := by
  have hb := State.handshakeBroken_eq_false (s := { s with inputs := rest }) hheld
  rw [step_of_inputs hin, State.clockEdge_ksa hrst hb hp, hpace]
  exact State.advance_ksa_work hp

end

/-- The pass is about to do iteration `n`, and one edge `e` is to come for each iteration left; the host owes no
command. -/
structure State.AtIteration (e : ClockEdge) (n : Nat) (s : State) (r : KsaRegs) : Prop where
  phase : s.phase = .ksa r
  counter : r.ki.toNat = n
  inv : PassInv s r
  held : s.held = none
  edges : s.inputs = List.replicate (256 - n) e

section
variable {e : ClockEdge} (hrst : e.rst = false) (hpace : e.pace = .work) (hquiet : e.presented = none)
include hrst hpace hquiet

/-- At the first edge an accepted INIT with a valid key begins its pass: iteration 0 comes next. -/
theorem step_of_startsPass {s : State} {w : Word} (hp : s.phase = .exec w) (hw : s.startsPass w = true)
    (hheld : s.held = none) (hin : s.inputs = List.replicate 257 e) :
    ∃ t r, step s = .next t ∧ t.AtIteration e 0 r := by
  have hk := (State.startsPass_iff.1 hw).2
  refine ⟨_, _, step_exec_work_of_startsPass hin hrst hpace (.inl hheld) hp hw, rfl, rfl, ?_, hquiet, rfl⟩
  exact passInv_beginPass hk

section
variable {n : Nat} {s : State} {r : KsaRegs}

/-- An edge of the pass does the iteration it is at. -/
theorem State.AtIteration.step_eq (h : s.AtIteration e n r) (hn : n < 256) :
    step s = .next (State.passIteration { s with inputs := List.replicate (255 - n) e, held := none } r) := by
  have hin : s.inputs = e :: List.replicate (255 - n) e := by
    rw [h.edges, ← List.replicate_succ]
    congr 1
    omega
  rw [step_ksa_work hin hrst hpace (.inl h.held) h.phase, hquiet]

/-- R105: every iteration but the last brings the pass to the next one. -/
theorem State.AtIteration.step_next (h : s.AtIteration e n r) (hn : n < 255) :
    ∃ t r', step s = .next t ∧ t.AtIteration e (n + 1) r' := by
  have hinv : PassInv { s with inputs := List.replicate (255 - n) e, held := none } r := { h.inv with }
  have hki : r.ki ≠ 0xFF#8 := fun hlast => by
    have hlt : r.ki.toNat < 255 := h.counter ▸ hn
    rw [hlast] at hlt
    exact absurd hlt (by decide)
  obtain ⟨r', hphase, -, hcounter, hinv'⟩ := passInv_passIteration hinv hki
  refine ⟨_, r', h.step_eq hrst hpace hquiet (by omega), hphase, hcounter.trans (congrArg (· + 1) h.counter), hinv',
    ?_, ?_⟩
  · rw [State.passIteration_held]
  · rw [State.passIteration_inputs]
    exact congrArg (List.replicate · e) (by omega)

/-- R109: the last iteration ends the pass. -/
theorem State.AtIteration.step_last (h : s.AtIteration e 255 r) :
    ∃ u : State, step s = .next u.endPass := by
  have hinv : PassInv { s with inputs := List.replicate (255 - 255) e, held := none } r := { h.inv with }
  have hlast : r.ki = 0xFF#8 := BitVec.eq_of_toNat_eq h.counter
  exact ⟨_, (h.step_eq hrst hpace hquiet (by omega)).trans (congrArg _ (passIteration_last hinv hlast))⟩

end

/-- After `n + 1` edges the pass has done `n` iterations. -/
theorem steps_atIteration {s : State} {w : Word} (hp : s.phase = .exec w) (hw : s.startsPass w = true)
    (hheld : s.held = none) (hin : s.inputs = List.replicate 257 e) {n : Nat} (hn : n < 256) :
    ∃ t r, s.steps (n + 1) = .next t ∧ t.AtIteration e n r := by
  induction n with
  | zero =>
    obtain ⟨t, r, hstep, ht⟩ := step_of_startsPass hrst hpace hquiet hp hw hheld hin
    exact ⟨t, r, (State.steps_succ_of_steps rfl).trans hstep, ht⟩
  | succ n ih =>
    obtain ⟨t, r, hsteps, ht⟩ := ih (by omega)
    obtain ⟨u, r', hstep, hu⟩ := ht.step_next hrst hpace hquiet (by omega)
    exact ⟨u, r', (State.steps_succ_of_steps hsteps).trans hstep, hu⟩

end

/-- Settles O51: the edges bring the pass from iteration to iteration, BUSY is the phase KSA, and the pass's invariant
has INITD 0; the edge after the last iteration is reached ends the pass. -/
theorem passTakes256Iterations : Obligations.PassTakes256Iterations := by
  intro s w e hp hw hheld he
  obtain ⟨hrst, hpace, hquiet⟩ : e.rst = false ∧ e.pace = .work ∧ e.presented = none := by
    subst he
    exact ⟨rfl, rfl, rfl⟩
  have hpass (n : Nat) (hn : n < 256) :=
    steps_atIteration hrst hpace hquiet (s := { s with inputs := List.replicate 257 e }) hp hw hheld rfl hn
  refine ⟨fun n hn => ?_, ?_⟩
  · obtain ⟨t, r, hsteps, ht⟩ := hpass n hn
    have hbusy : t.busy = true := State.busy_iff.2 ⟨r, ht.phase⟩
    have hinitd := ht.inv.notInitialised
    obtain ⟨hport0, hport1⟩ := t.statusPort_low
    exact ⟨t, r, hsteps, ht.phase, ht.counter, hbusy, hinitd, hport1.trans hbusy, hport0.trans hinitd⟩
  · obtain ⟨t, r, hsteps, ht⟩ := hpass 255 (by omega)
    obtain ⟨u, hstep⟩ := ht.step_last hrst hpace hquiet
    exact ⟨_, (State.steps_succ_of_steps hsteps).trans hstep, u.endPass_phase, u.endPass_INITD, rfl⟩

end Sys2Proof.Machine
end

section
/-! PROOFS of the family 41_keystream.md: what XFORM and NOP do, the arithmetic of one PRGA step, and what a sequence
of XFORMs answers: the involution, its continuity over other commands, and `I` as the count of the XFORMs. -/

namespace Sys2Proof.Machine

open Sys2Proof

/-! ## XFORM and NOP (R120 to R123, R125, R128) -/

/-- Settles O18: NOP ignores its `imm8`. -/
theorem nopResult : Obligations.NopResult :=
  fun _ => ⟨rfl, fun _ => State.complete_opcode_append (i := .nop) rfl (by simp [Instr.operand])⟩

/-- Settles O24: the table after the step is the old one with the entries at the new `I` and the new `J` swapped. -/
theorem xformResult : Obligations.XformResult := by
  intro d s
  refine ⟨?_, ?_, execXform_of_not_initd d⟩
  · exact State.complete_opcode_append (i := .xform d) rfl (by simp [Instr.operand])
  · rintro hinitd I' J' rfl rfl
    exact ⟨_, execXform_of_initd d hinitd, tableAt_swapTable_left _ _ _, tableAt_swapTable_right _ _ _,
      fun _ hI hJ => tableAt_swapTable_of_ne _ hI hJ⟩

/-- Settles O39: the data byte stands in the response only, beside the keystream byte of the state before. -/
theorem keystreamIndependentOfData : Obligations.KeystreamIndependentOfData := by
  intro d d' s t t' hinitd h h'
  obtain rfl := Host.Outcome.next.inj ((execXform_of_initd d hinitd).symm.trans h)
  obtain rfl := Host.Outcome.next.inj ((execXform_of_initd d' hinitd).symm.trans h')
  exact ⟨rfl, _, rfl, rfl⟩

/-- Settles O40: an XFORM swaps two entries, or writes nothing. -/
theorem xformKeepsPermutation : Obligations.XformKeepsPermutation := by
  intro d s t hperm h
  rcases Bool.eq_false_or_eq_true s.INITD with hinitd | hinitd
  · obtain rfl := Host.Outcome.next.inj ((execXform_of_initd d hinitd).symm.trans h)
    exact tableIsPermutation_swapTable _ _ hperm
  · obtain rfl := Host.Outcome.next.inj ((execXform_of_not_initd d hinitd).symm.trans h)
    exact hperm

/-! ## The arithmetic of one PRGA step (R129) -/

theorem swapTable_add_swapTable (S : Memory) (a b : Byte) :
    tableAt (swapTable S a b) a + tableAt (swapTable S a b) b = tableAt S a + tableAt S b := by
  rw [tableAt_swapTable_left, tableAt_swapTable_right, BitVec.add_comm]

theorem tableAt_swapTable_self (S : Memory) (a n : Byte) : tableAt (swapTable S a a) n = tableAt S n := by
  rw [tableAt_swapTable, Equiv.swap_self, Equiv.refl_apply]

theorem getLsbD_zero_two_mul (x : Byte) : (2#8 * x).getLsbD 0 = false := by
  simp only [BitVec.getLsbD, Nat.testBit_zero, BitVec.toNat_mul, BitVec.toNat_ofNat, decide_eq_false_iff_not]
  omega

/-- Settles O38: the swap exchanges the two terms of `t`, and swaps an entry with itself where `J' = I'`. -/
theorem stepArithmetic : Obligations.StepArithmetic := by
  rintro S I J I' J' rfl rfl
  rw [prga_S]
  refine ⟨swapTable_add_swapTable S _ _, fun hJ => ?_⟩
  have hentry : tableAt S (I + 1#8) = I + 1#8 - J := eq_sub_of_add_eq' hJ
  have ht : tableAt S (I + 1#8) + tableAt S (I + 1#8) = 2#8 * tableAt S (I + 1#8) := (two_mul _).symm
  rw [hJ, swapTable_add_swapTable, ht]
  exact ⟨hentry, rfl, getLsbD_zero_two_mul _, tableAt_swapTable_self S _⟩

/-! ## What a sequence of XFORMs answers (R122, R124, R125) -/

/-- The next keystream bytes of a running engine, one per PRGA step (R120). -/
def keystream (S : Memory) (I J : Byte) : Nat → List Byte
  | 0 => []
  | n + 1 => (prga S I J).ks :: keystream (prga S I J).S (prga S I J).I (prga S I J).J n

/-- The data bytes that the XFORMs of a message answer: each byte XOR its keystream byte, or 0x00 throughout (R166)
where the engine is not initialised. -/
def State.xbufData (s : State) (msg : List Byte) : List Byte :=
  if s.INITD then List.zipWith xorDatapath msg (keystream s.S s.I s.J msg.length)
  else List.replicate msg.length 0x00#8

theorem length_keystream (S : Memory) (I J : Byte) (n : Nat) : (keystream S I J n).length = n := by
  induction n generalizing S I J with
  | zero => rfl
  | succ n ih => exact congrArg Nat.succ (ih _ _ _)

section
variable {s t u : State}

@[simp] theorem State.xbufData_nil : s.xbufData [] = [] := by simp [State.xbufData]

@[simp] theorem State.length_xbufData (msg : List Byte) : (s.xbufData msg).length = msg.length := by
  unfold State.xbufData
  split <;> simp [length_keystream]

/-- The answers depend on the running keystream only. -/
theorem State.xbufData_congr (h : t.S = s.S ∧ t.I = s.I ∧ t.J = s.J ∧ t.INITD = s.INITD) :
    t.xbufData = s.xbufData := by
  obtain ⟨hS, hI, hJ, hinitd⟩ := h
  funext msg
  simp only [State.xbufData, hS, hI, hJ, hinitd]

/-- R126: the same keystream twice over cancels. -/
theorem State.xbufData_xbufData (hinitd : s.INITD = true) (msg : List Byte) :
    s.xbufData (s.xbufData msg) = msg := by
  refine List.ext_getElem (by simp) fun n _ _ => ?_
  simp [State.xbufData, hinitd, length_keystream, xorDatapath]

/-- R122 on a ready engine: the response is the first byte of the answers, and the engine it leaves gives the rest. -/
theorem transact_xform (h : s.ready) (d : Byte) :
    ∃ t r, transact (encode (.xform d)) s = some (t, r) ∧ t.ready ∧
      ∀ msg, s.xbufData (d :: msg) = r.data :: t.xbufData msg := by
  have hbuild : (Instr.xform d).wellFormed s.debugRead = true := wellFormed_of_not_isDebugRead rfl
  rcases Bool.eq_false_or_eq_true s.INITD with hinitd | hinitd
  · refine ⟨_, _, transact_encode h hbuild (execXform_of_initd d hinitd) rfl, ⟨rfl, h.2⟩, fun msg => ?_⟩
    simp [State.xbufData, hinitd, keystream, xorDatapath]
  · refine ⟨_, _, transact_encode h hbuild (execXform_of_not_initd d hinitd) rfl, ⟨rfl, h.2⟩, fun msg => ?_⟩
    simp [State.xbufData, hinitd, List.replicate_succ]

theorem transformBuffer_eq_some_iff {data out : List Byte} :
    transformBuffer data s = some (t, out) ↔
      ∃ rs, session (pseudoXbuf data) s = some (t, rs) ∧ rs.map Response.data = out := by
  unfold transformBuffer
  split
  · next h => simp [h]
  · next h => simp [h]

/-- A message in two pieces is the second piece after the first (R124). -/
theorem transformBuffer_append {m1 m2 out1 out2 : List Byte} (h : transformBuffer m1 s = some (t, out1))
    (hs : transformBuffer m2 t = some (u, out2)) : transformBuffer (m1 ++ m2) s = some (u, out1 ++ out2) := by
  obtain ⟨rs, hrs, rfl⟩ := transformBuffer_eq_some_iff.1 h
  obtain ⟨qs, hqs, rfl⟩ := transformBuffer_eq_some_iff.1 hs
  have happend : pseudoXbuf (m1 ++ m2) = pseudoXbuf m1 ++ pseudoXbuf m2 := List.map_append
  exact transformBuffer_eq_some_iff.2 ⟨rs ++ qs, happend ▸ session_append hrs hqs, List.map_append⟩

/-- EVERY message on a ready engine gets its answers, and the engine is ready for more. -/
theorem transformBuffer_of_ready (h : s.ready) (msg : List Byte) :
    ∃ t, transformBuffer msg s = some (t, s.xbufData msg) ∧ t.ready := by
  induction msg generalizing s with
  | nil => exact ⟨s, by rw [State.xbufData_nil]; rfl, h⟩
  | cons d msg ih =>
    obtain ⟨t, r, hr, ht, hdata⟩ := transact_xform h d
    obtain ⟨u, hu, hready⟩ := ih ht
    have hfirst : transformBuffer [d] s = some (t, [r.data]) :=
      transformBuffer_eq_some_iff.2 ⟨[r], session_singleton hr, rfl⟩
    exact ⟨u, hdata msg ▸ transformBuffer_append hfirst hu, hready⟩

end

/-! ## The involution (R126) -/

/-- Two ready engines that load the same key run the same keystream (R86, R107). -/
theorem session_pseudoLdkey_same_keystream {key : List Byte} {s u : State} (hs : s.ready) (hu : u.ready)
    (hpos : 1 ≤ key.length) (hle : key.length ≤ 256) :
    ∃ s1 rs u1 rs', session (pseudoLdkey key) s = some (s1, rs) ∧ session (pseudoLdkey key) u = some (u1, rs') ∧
      s1.ready ∧ u1.ready ∧ s1.INITD = true ∧
      (u1.S = s1.S ∧ u1.I = s1.I ∧ u1.J = s1.J ∧ u1.INITD = s1.INITD) := by
  obtain ⟨s1, rs, hrs, hs1, hload, -⟩ := ldkeyLoadsTheKey key s hs
  obtain ⟨u1, rs', hrs', hu1, hload', -⟩ := ldkeyLoadsTheKey key u hu
  obtain ⟨-, -, -, hinitd, hI, hJ, hS, hbytes⟩ := hload hpos hle
  obtain ⟨-, -, -, hinitd', hI', hJ', hS', hbytes'⟩ := hload' hpos hle
  have hkey : ∀ n : Byte, n.toNat < key.length → keyAt u1.K n = keyAt s1.K n := fun n hn => by
    have h := (hbytes' n.toNat hn).trans (hbytes n.toNat hn).symm
    rwa [BitVec.ofNat_toNat, BitVec.setWidth_eq] at h
  have htable : u1.S = s1.S := by rw [hS, hS', ksaTable_eq_of_eq_below hpos hkey]
  exact ⟨s1, rs, u1, rs', hrs, hrs', hs1, hu1, hinitd, htable, hI'.trans hI.symm, hJ'.trans hJ.symm,
    hinitd'.trans hinitd.symm⟩

/-- Settles O58: both engines run one keystream, which cancels. -/
theorem encryptThenDecrypt : Obligations.EncryptThenDecrypt := by
  intro key msg s u hs hu hpos hle
  obtain ⟨s1, rs, u1, rs', hrs, hrs', hs1, hu1, hinitd, hsame⟩ :=
    session_pseudoLdkey_same_keystream hs hu hpos hle
  obtain ⟨s2, hs2, -⟩ := transformBuffer_of_ready hs1 msg
  obtain ⟨u2, hu2, -⟩ := transformBuffer_of_ready hu1 (s1.xbufData msg)
  rw [State.xbufData_congr hsame, State.xbufData_xbufData hinitd] at hu2
  exact ⟨s1, rs, s2, _, u1, rs', u2, hrs, hs2, hrs', hu2, State.length_xbufData msg⟩

/-! ## Other commands between the XFORMs (R127, R130) -/

section
variable {s t : State} {w : Word}

/-- R35 for a word: unless its opcode is INIT's or XFORM's, it leaves the running keystream. -/
theorem State.complete_keeps_keystream (h : s.complete w = .next t) (hinit : (Word.op w).toNat ≠ 0x03)
    (hxform : (Word.op w).toNat ≠ 0x04) : t.S = s.S ∧ t.I = s.I ∧ t.J = s.J ∧ t.INITD = s.INITD := by
  unfold State.complete at h
  split at h
  · next i hi =>
    obtain ⟨-, hop, -⟩ := decode_eq_command_iff.1 hi
    rw [hop] at hinit hxform
    exact exec_keeps_keystream (by rintro rfl; exact hinit rfl) (by rintro d rfl; exact hxform rfl) h
  · cases h
    exact ⟨rfl, rfl, rfl, rfl⟩

/-- R130 for a word: on an initialised engine an XFORM adds 1 to `I`, and no other command but INIT writes it. -/
theorem State.complete_I (h : s.complete w = .next t) (hinitd : s.INITD = true)
    (hinit : (Word.op w).toNat ≠ 0x03) :
    t.INITD = true ∧ t.I = s.I + if (Word.op w).toNat = 0x04 then 1#8 else 0#8 := by
  split
  · next hop =>
    have hd : decode s.debugRead w = .command (.xform (Word.imm8 w)) :=
      decode_eq_command_iff.2 ⟨wellFormed_of_not_isDebugRead rfl, BitVec.eq_of_toNat_eq hop,
        by simp [Instr.operand]⟩
    rw [State.complete_of_command hd, exec, execXform_of_initd _ hinitd] at h
    cases h
    exact ⟨hinitd, rfl⟩
  · next hop =>
    obtain ⟨-, hI, -, hinitd'⟩ := State.complete_keeps_keystream h hinit hop
    exact ⟨hinitd'.trans hinitd, by rw [hI, BitVec.add_zero]⟩

theorem transact_keeps_keystream (h : s.ready) (hinit : (Word.op w).toNat ≠ 0x03)
    (hxform : (Word.op w).toNat ≠ 0x04) :
    ∃ t r, transact w s = some (t, r) ∧ t.ready ∧
      (t.S = s.S ∧ t.I = s.I ∧ t.J = s.J ∧ t.INITD = s.INITD) := by
  obtain ⟨t, r, ht, -, hr⟩ := transact_of_ready h w
  obtain ⟨-, hheld, -⟩ := State.complete_frame ht
  have hkeep := State.complete_keeps_keystream ht hinit hxform
  exact ⟨_, r, hr, ⟨rfl, hheld.trans h.2⟩, hkeep⟩

theorem transact_I (h : s.ready) (hinitd : s.INITD = true) (hinit : (Word.op w).toNat ≠ 0x03) :
    ∃ t r, transact w s = some (t, r) ∧ t.ready ∧
      (t.INITD = true ∧ t.I = s.I + if (Word.op w).toNat = 0x04 then 1#8 else 0#8) := by
  obtain ⟨t, r, ht, -, hr⟩ := transact_of_ready h w
  obtain ⟨-, hheld, -⟩ := State.complete_frame ht
  have hI := State.complete_I ht hinitd hinit
  exact ⟨_, r, hr, ⟨rfl, hheld.trans h.2⟩, hI⟩

end

/-- R127: no sequence without INIT and XFORM touches the running keystream. -/
theorem session_keeps_keystream {ws : List Word} {s : State} (h : s.ready)
    (hws : ∀ w ∈ ws, (Word.op w).toNat ≠ 0x03 ∧ (Word.op w).toNat ≠ 0x04) :
    ∃ t rs, session ws s = some (t, rs) ∧ t.ready ∧
      (t.S = s.S ∧ t.I = s.I ∧ t.J = s.J ∧ t.INITD = s.INITD) := by
  induction ws generalizing s with
  | nil => exact ⟨s, [], rfl, h, rfl, rfl, rfl, rfl⟩
  | cons w ws ih =>
    obtain ⟨⟨hinit, hxform⟩, hws⟩ := List.forall_mem_cons.1 hws
    obtain ⟨t, r, hr, ht, hS, hI, hJ, hinitd⟩ := transact_keeps_keystream h hinit hxform
    obtain ⟨u, rs, hrs, hu, hS', hI', hJ', hinitd'⟩ := ih ht hws
    exact ⟨u, _, session_cons hr hrs, hu, hS'.trans hS, hI'.trans hI, hJ'.trans hJ, hinitd'.trans hinitd⟩

/-- Settles O59: the answers to the second piece depend on the running keystream only, which the commands between the
pieces leave. -/
theorem keystreamContinuity : Obligations.KeystreamContinuity := by
  intro m1 m2 ws s h hws
  obtain ⟨s1, hs1, hready1⟩ := transformBuffer_of_ready h m1
  obtain ⟨s2, rs, hs2, hready2, hkeep⟩ := session_keeps_keystream hready1 hws
  obtain ⟨s3, hs3, -⟩ := transformBuffer_of_ready hready2 m2
  obtain ⟨s4, hs4, -⟩ := transformBuffer_of_ready hready1 m2
  rw [State.xbufData_congr hkeep] at hs3
  exact ⟨s1, _, s2, rs, s3, _, s4, hs1, hs2, hs3, transformBuffer_append hs1 hs4⟩

/-- Settles O60: each word adds what `State.complete_I` says. -/
theorem indexCountsXforms : Obligations.IndexCountsXforms := by
  intro ws s h hinitd hws
  induction ws generalizing s with
  | nil => exact ⟨s, [], rfl, (BitVec.add_zero s.I).symm⟩
  | cons w ws ih =>
    obtain ⟨hinit, hws⟩ := List.forall_mem_cons.1 hws
    obtain ⟨t, r, hr, ht, htinitd, hI⟩ := transact_I h hinitd hinit
    obtain ⟨u, rs, hrs, hu⟩ := ih t ht htinitd hws
    refine ⟨u, _, session_cons hr hrs, ?_⟩
    rw [hu, hI, List.countP_cons, BitVec.add_assoc, BitVec.add_comm (ite _ _ _), BitVec.ofNat_add]
    simp only [decide_eq_true_eq, apply_ite (BitVec.ofNat 8)]

end Sys2Proof.Machine
end

section
/-! PROOFS of the family 42_readback.md: what the five read-back commands return, that no response depends on the
key buffer, and that only the debug read-back commands depend on `DEBUG_READ`. -/

namespace Sys2Proof.Machine

open Sys2Proof

/-! ## The checks of the debug read-back commands (R142 to R144, R164) -/

section
variable {s t : State} {i : Instr}

theorem State.debugRespond_of_no_debugRead (v : Byte) (hbuild : s.debugRead = false) :
    s.debugRespond v = s.raiseError .illegalOp := by simp [State.debugRespond, hbuild]

theorem State.debugRespond_of_not_initd (v : Byte) (hbuild : s.debugRead = true) (hinitd : s.INITD = false) :
    s.debugRespond v = s.raiseError .notInit := by simp [State.debugRespond, hbuild, hinitd]

theorem State.debugRespond_of_initd (v : Byte) (hbuild : s.debugRead = true) (hinitd : s.INITD = true) :
    s.debugRespond v = s.respond v .ok := by simp [State.debugRespond, hbuild, hinitd]

/-- R142 to R144: the three ways a command that answers by `debugRespond` completes. -/
theorem exec_of_debugRespond {v : Byte} (h : exec i s = .next (s.debugRespond v)) :
    (s.debugRead = true → s.INITD = true → exec i s = .next { s with phase := .resp ⟨v, .ok⟩ }) ∧
    (s.debugRead = false → exec i s = .next { s with phase := .resp ⟨0x00#8, .illegalOp⟩ }) ∧
    (s.debugRead = true → s.INITD = false →
      exec i s = .next { s with phase := .resp ⟨0x00#8, .notInit⟩ }) := by
  refine ⟨fun hbuild hinitd => ?_, fun hbuild => ?_, fun hbuild hinitd => ?_⟩
  · rw [h, State.debugRespond_of_initd v hbuild hinitd]; rfl
  · rw [h, State.debugRespond_of_no_debugRead v hbuild]; rfl
  · rw [h, State.debugRespond_of_not_initd v hbuild hinitd]; rfl

theorem exec_of_isDebugRead (s : State) (h : i.isDebugRead = true) : ∃ v, exec i s = .next (s.debugRespond v) := by
  cases i with
  | rdi | rdj | rds n => exact ⟨_, rfl⟩
  | nop | kclr | kpush b | init | xform d | rdstat | rdklen => cases h

/-- R82: the opcodes of the debug read-back commands are reserved in a build without them. -/
theorem reservedOp_opcode_of_isDebugRead (h : i.isDebugRead = true) : reservedOp false i.opcode.toNat := by
  cases i with
  | rdi | rdj | rds n => exact .inr (.inr ⟨rfl, by simp [Instr.opcode]⟩)
  | nop | kclr | kpush b | init | xform d | rdstat | rdklen => cases h

/-- R146: a word with the opcode of a debug read-back command completes as that command in both builds: where the
word is reserved, the command too answers ILLEGAL_OP. -/
theorem State.complete_opcode_append_of_isDebugRead {b : Byte} (h : i.isDebugRead = true)
    (hoperand : ∀ c, i.operand = some c → c = b) : s.complete (i.opcode ++ b) = exec i s := by
  cases hbuild : s.debugRead with
  | true =>
    exact State.complete_of_command
      (decode_append_eq_command_iff.2 ⟨by simp [Instr.wellFormed, hbuild], rfl, hoperand⟩)
  | false =>
    obtain ⟨v, hexec⟩ := exec_of_isDebugRead s h
    have hres := decode_append_of_reservedOp b (hbuild ▸ reservedOp_opcode_of_isDebugRead h)
    rw [State.complete_of_reserved hres, hexec, State.debugRespond_of_no_debugRead v hbuild]

end

/-! ## The results (R140 to R144) -/

/-- R141: the low byte of the key length. -/
theorem State.klenLow_toNat (s : State) : s.klenLow.toNat = s.KLEN.toNat % 256 := by
  simp [State.klenLow]

/-- Settles O25: the response is STATUS, and a command executes outside the phase KSA. -/
theorem rdstatResult : Obligations.RdstatResult := by
  intro s
  refine ⟨fun b => ?_, s.statusReg, rfl, s.statusReg_initd, s.statusReg_busy, s.statusReg_kovf,
    s.statusReg_kfull, fun k hk => s.statusReg_reserved hk, fun ⟨w, hw⟩ => ?_⟩
  · exact State.complete_opcode_append (i := .rdstat) rfl (by simp [Instr.operand])
  · exact s.statusReg_busy.trans (State.busy_eq_false (by simp [hw]))

/-- Settles O26: 0 and 256 have the same low byte. -/
theorem rdklenResult : Obligations.RdklenResult := by
  intro s
  refine ⟨fun b => ?_, s.klenLow, rfl, s.klenLow_toNat, fun h => BitVec.eq_of_toNat_eq ?_⟩
  · exact State.complete_opcode_append (i := .rdklen) rfl (by simp [Instr.operand])
  · rw [s.klenLow_toNat]
    rcases h with h | h
    all_goals rw [h]; rfl

/-- Settles O27: RDI answers by `debugRespond` of `I`. -/
theorem rdiResult : Obligations.RdiResult := fun _ =>
  ⟨fun _ => State.complete_opcode_append_of_isDebugRead (i := .rdi) rfl (by simp [Instr.operand]),
    exec_of_debugRespond rfl⟩

/-- Settles O28: RDJ answers by `debugRespond` of `J`. -/
theorem rdjResult : Obligations.RdjResult := fun _ =>
  ⟨fun _ => State.complete_opcode_append_of_isDebugRead (i := .rdj) rfl (by simp [Instr.operand]),
    exec_of_debugRespond rfl⟩

/-- Settles O29: RDS answers by `debugRespond` of the entry its operand selects. -/
theorem rdsResult : Obligations.RdsResult := fun n _ =>
  ⟨State.complete_opcode_append_of_isDebugRead (i := .rds n) rfl (by simp [Instr.operand]),
    exec_of_debugRespond rfl⟩

/-! ## Nothing read back depends on the key buffer (R24, R145) -/

section
variable {s t : State} {i : Instr}

theorem State.debugRespond_with_key (s : State) (v : Byte) (K' : Memory) :
    State.debugRespond { s with K := K' } v = { s.debugRespond v with K := K' } := by
  simp only [State.debugRespond]
  split
  · rfl
  · split <;> rfl

/-- A command other than INIT does the same over another key buffer, but for the key buffer it leaves. -/
theorem exec_with_key (K' : Memory) (hinit : i ≠ .init) (h : exec i s = .next t) :
    ∃ K'', exec i { s with K := K' } = .next { t with K := K'' } := by
  cases i with
  | init => exact absurd rfl hinit
  | kpush b =>
    by_cases hlt : s.KLEN < 256#9
    · obtain rfl := Host.Outcome.next.inj ((exec_kpush_of_lt b hlt).symm.trans h)
      exact ⟨setAt K' s.keySlot b, exec_kpush_of_lt b hlt⟩
    · obtain rfl := Host.Outcome.next.inj ((exec_kpush_of_full b hlt).symm.trans h)
      exact ⟨K', exec_kpush_of_full b hlt⟩
  | xform d =>
    rcases Bool.eq_false_or_eq_true s.INITD with hinitd | hinitd
    · obtain rfl := Host.Outcome.next.inj ((execXform_of_initd d hinitd).symm.trans h)
      exact ⟨K', execXform_of_initd d hinitd⟩
    · obtain rfl := Host.Outcome.next.inj ((execXform_of_not_initd d hinitd).symm.trans h)
      exact ⟨K', execXform_of_not_initd d hinitd⟩
  | rdi => cases h; exact ⟨K', congrArg Host.Outcome.next (s.debugRespond_with_key s.I K')⟩
  | rdj => cases h; exact ⟨K', congrArg Host.Outcome.next (s.debugRespond_with_key s.J K')⟩
  | rds n => cases h; exact ⟨K', congrArg Host.Outcome.next (s.debugRespond_with_key (s.tableEntry n) K')⟩
  | nop | kclr | rdstat | rdklen => cases h; exact ⟨K', rfl⟩

/-- R103, R104: INIT's response depends on its key check alone. -/
theorem exec_init_phase (h : exec .init s = .next t) :
    t.phase = .resp ⟨0x00#8, if s.keyInvalid then .invalidKey else .ok⟩ := by
  cases hk : s.keyInvalid with
  | true =>
    obtain rfl := Host.Outcome.next.inj ((execInit_of_invalid hk).symm.trans h)
    rfl
  | false =>
    obtain rfl := (exec_init_eq_next_iff hk).1 h
    rfl

end

/-- Settles O54: INIT's key check reads `KLEN` and `KOVF` only, and every other command leaves the same but `K`. -/
theorem keyBufferNeverReturned : Obligations.KeyBufferNeverReturned := by
  intro i s t t' K' h h'
  by_cases hinit : i = .init
  · subst hinit
    exact ⟨(exec_init_phase h').trans (exec_init_phase h).symm, fun hne => absurd rfl hne⟩
  · obtain ⟨K'', hexec⟩ := exec_with_key K' hinit h
    obtain rfl := Host.Outcome.next.inj (hexec.symm.trans h')
    exact ⟨rfl, fun _ => rfl⟩

/-! ## What depends on `DEBUG_READ` (R9, R146) -/

/-- Only the debug read-back commands check the build. -/
theorem exec_with_debugRead {s t : State} {i : Instr} (dbg : Bool) (hbuild : i.isDebugRead = false)
    (h : exec i s = .next t) : exec i { s with debugRead := dbg } = .next { t with debugRead := dbg } := by
  cases i with
  | kpush b =>
    by_cases hlt : s.KLEN < 256#9
    · obtain rfl := Host.Outcome.next.inj ((exec_kpush_of_lt b hlt).symm.trans h)
      exact exec_kpush_of_lt b hlt
    · obtain rfl := Host.Outcome.next.inj ((exec_kpush_of_full b hlt).symm.trans h)
      exact exec_kpush_of_full b hlt
  | init =>
    rcases Bool.eq_false_or_eq_true s.keyInvalid with hk | hk
    · obtain rfl := Host.Outcome.next.inj ((execInit_of_invalid hk).symm.trans h)
      exact execInit_of_invalid hk
    · obtain rfl := Host.Outcome.next.inj ((execInit_of_valid hk).symm.trans h)
      exact execInit_of_valid hk
  | xform d =>
    rcases Bool.eq_false_or_eq_true s.INITD with hinitd | hinitd
    · obtain rfl := Host.Outcome.next.inj ((execXform_of_initd d hinitd).symm.trans h)
      exact execXform_of_initd d hinitd
    · obtain rfl := Host.Outcome.next.inj ((execXform_of_not_initd d hinitd).symm.trans h)
      exact execXform_of_not_initd d hinitd
  | rdi | rdj | rds n => cases hbuild
  | nop | kclr | rdstat | rdklen => cases h; rfl

/-- R82, R83: the decoder asks for the build at the opcodes 0x12 to 0x14 only. -/
theorem decode_eq_of_not_debugRead_op {w : Word}
    (h : ¬ (0x12 ≤ (Word.op w).toNat ∧ (Word.op w).toNat ≤ 0x14)) : decode true w = decode false w := by
  unfold decode
  split
  case h_8 hop | h_9 hop | h_10 hop => omega
  all_goals rfl

/-- Settles O55: neither the other commands nor the decoder at the other opcodes reads `DEBUG_READ`. -/
theorem debugReadGatesThreeCommands : Obligations.DebugReadGatesThreeCommands :=
  ⟨fun _ _ _ dbg hbuild h => exec_with_debugRead dbg hbuild h, fun _ => decode_eq_of_not_debugRead_op⟩

end Sys2Proof.Machine
end

section
/-! PROOFS of the family 60_exceptions.md: what can stop a step, the first check that applies to a command word, and
that a command which fails it writes nothing. -/

namespace Sys2Proof.Machine

open Sys2Proof

/-! ## What stops a step (R160, R175) -/

/-- R199, R201: no pace stops a command in flight. -/
theorem State.advance_next (p : Pace) (s : State) : ∃ t, s.advance p = .next t := by
  rcases State.advance_cases (p := p) (s := s) rfl with h | ⟨_, -, -, h⟩ | ⟨_, _, -, -, h⟩ | ⟨_, -, h⟩ | ⟨_, -, h⟩
  all_goals exact ⟨_, h⟩

/-- R160: an edge of a host that keeps the handshake answers a next state. -/
theorem State.clockEdge_next {s : State} {e : ClockEdge} (hkept : s.handshakeBroken e = false) :
    ∃ t, s.clockEdge e = .next t := by
  rcases State.clockEdge_cases (e := e) (s := s) rfl with ⟨hbroken, -⟩ | ⟨-, -, h⟩ | ⟨-, -, hrun⟩
  · cases hkept.symm.trans hbroken
  · exact ⟨_, h⟩
  · rcases hrun with ⟨-, -, h⟩ | ⟨-, -, h⟩ | ⟨-, h⟩ | ⟨_, -, h⟩
    · exact ⟨_, h⟩
    · rw [← h]; exact State.advance_next _ _
    · rw [← h]; exact State.advance_next _ _
    · exact ⟨_, h⟩

/-- R72: a host breaks the handshake only by not presenting a word it owes. -/
theorem State.held_of_handshakeBroken {s : State} {e : ClockEdge} (hbroken : s.handshakeBroken e = true) :
    ∃ w, s.held = some w ∧ (e.cmdValid = false ∨ e.cmdWord ≠ w) := by
  cases hheld : s.held with
  | none => cases hbroken.symm.trans (State.handshakeBroken_eq_false (.inl hheld))
  | some w => exact ⟨w, rfl, (State.handshakeBroken_of_held hheld).1 hbroken⟩

/-- Settles O13: with no edge nothing happens, and an edge is refused only for the handshake. -/
theorem onlyBrokenHandshakeStops : Obligations.OnlyBrokenHandshakeStops := by
  intro s
  cases hin : s.inputs with
  | nil => exact .inl ⟨s, step_of_no_inputs hin⟩
  | cons e rest =>
    rw [step_of_inputs hin]
    cases hb : State.handshakeBroken { s with inputs := rest } e with
    | false => exact .inl (State.clockEdge_next hb)
    | true =>
      obtain ⟨w, hheld, hbreach⟩ := State.held_of_handshakeBroken hb
      exact .inr ⟨State.clockEdge_broken hb, e, rest, w, rfl, hheld, hbreach⟩

/-- Settles O17: a step with no edge to come is no step. -/
theorem stoppedClockHoldsState : Obligations.StoppedClockHoldsState := fun _ => step_of_no_inputs

/-! ## A command of the build: its checks, and OK where they pass (R161, R162, R165) -/

section
variable {s : State} {i : Instr}

/-- R9: a build that has a debug read-back command has `DEBUG_READ = 1`. -/
theorem debugRead_of_wellFormed (hdebug : i.isDebugRead = true) (hbuild : i.wellFormed s.debugRead = true) :
    s.debugRead = true := by
  simpa [Instr.wellFormed, hdebug] using hbuild

/-- The opcodes of XFORM, RDI, RDJ and RDS are those that R164 checks for NOT_INIT. -/
theorem needsInit_opcode_iff : needsInit i.opcode.toNat ↔ (∃ d, i = .xform d) ∨ i.isDebugRead = true := by
  cases i <;> simp [needsInit, Instr.opcode, Instr.isDebugRead]

theorem opcode_toNat_eq_three_iff : i.opcode.toNat = 0x03 ↔ i = .init := by
  cases i <;> simp [Instr.opcode]

/-- R162: XFORM, RDI, RDJ and RDS on an engine that is not initialised. -/
theorem exec_of_needsInit (hbuild : i.wellFormed s.debugRead = true) (hneeds : needsInit i.opcode.toNat)
    (hinitd : s.INITD = false) : exec i s = .next (s.raiseError .notInit) := by
  rcases needsInit_opcode_iff.1 hneeds with ⟨d, rfl⟩ | hdebug
  · exact execXform_of_not_initd d hinitd
  · obtain ⟨v, hv⟩ := exec_of_isDebugRead s hdebug
    rw [hv, State.debugRespond_of_not_initd v (debugRead_of_wellFormed hdebug hbuild) hinitd]

/-- R164: a command to which no check applies completes with OK. -/
theorem exec_ok (hbuild : i.wellFormed s.debugRead = true) (hinitd : needsInit i.opcode.toNat → s.INITD = true)
    (hkey : i = .init → s.keyInvalid = false) : ∃ t v, exec i s = .next t ∧ t.phase = .resp ⟨v, .ok⟩ := by
  rw [needsInit_opcode_iff] at hinitd
  cases i with
  | nop | kclr | rdstat | rdklen => exact ⟨_, _, rfl, rfl⟩
  | kpush b =>
    by_cases hlt : s.KLEN < 256#9
    · exact ⟨_, _, exec_kpush_of_lt b hlt, rfl⟩
    · exact ⟨_, _, exec_kpush_of_full b hlt, rfl⟩
  | init => exact ⟨_, _, execInit_of_valid (hkey rfl), rfl⟩
  | xform d => exact ⟨_, _, execXform_of_initd d (hinitd (.inl ⟨d, rfl⟩)), rfl⟩
  | rdi | rdj | rds n =>
    have hdebug := debugRead_of_wellFormed rfl hbuild
    exact ⟨_, _, congrArg Host.Outcome.next (State.debugRespond_of_initd _ hdebug (hinitd (.inr rfl))), rfl⟩

end

/-- Settles O33: none of the five has a check, and KPUSH on a full buffer only sets `KOVF`. -/
theorem commandsThatNeverFail : Obligations.CommandsThatNeverFail := by
  intro s b i hi
  have hchecks : i.isDebugRead = false ∧ ¬ needsInit i.opcode.toNat ∧ i ≠ .init := by
    rw [needsInit_opcode_iff]
    rcases hi with rfl | rfl | rfl | rfl | rfl
    all_goals simp [Instr.isDebugRead]
  obtain ⟨hdebug, hneeds, hinit⟩ := hchecks
  obtain ⟨t, v, ht, hp⟩ := exec_ok (s := s) (wellFormed_of_not_isDebugRead hdebug)
    (fun h => absurd h hneeds) (fun h => absurd h hinit)
  refine ⟨t, v, ht, hp, ?_⟩
  rintro rfl hfull
  obtain rfl := Host.Outcome.next.inj ((exec_kpush_of_full b (by simp [hfull])).symm.trans ht)
  rfl

/-! ## The first check that applies to a word (R163, R164, R166) -/

/-- R164: the code of the first check that applies to a word with the opcode `op`, OK where none applies. -/
def State.responseCode (s : State) (op : Nat) : RspCode :=
  if reservedOp s.debugRead op then .illegalOp
  else if needsInit op ∧ s.INITD = false then .notInit
  else if op = 0x03 ∧ (s.KLEN = 0#9 ∨ s.KOVF = true) then .invalidKey
  else .ok

/-- Settles O31: the decoder rejects the word under its opcode. -/
theorem reservedOpcodeIsIllegal : Obligations.ReservedOpcodeIsIllegal :=
  fun _ _ h => State.complete_of_reserved (decode_of_reservedOp h)

/-- R83: a word whose opcode is not reserved is a command of the build. -/
theorem State.complete_of_not_reserved {s : State} {w : Word}
    (h : ¬ reservedOp s.debugRead (Word.op w).toNat) :
    ∃ i : Instr, i.wellFormed s.debugRead = true ∧ i.opcode = Word.op w ∧ s.complete w = exec i s := by
  cases hd : decode s.debugRead w with
  | reserved op => exact absurd (reservedOp_of_decode hd) h
  | command i =>
    obtain ⟨hbuild, hop, -⟩ := decode_cases hd
    exact ⟨i, hbuild, hop.symm, State.complete_of_command hd⟩

/-- R164, R166: a word to which a check applies raises the error, which writes nothing; every other completes with
OK. -/
theorem State.complete_responseCode (s : State) (w : Word) :
    s.complete w = .next (s.raiseError (s.responseCode (Word.op w).toNat)) ∨
    (s.responseCode (Word.op w).toNat = .ok ∧ ∃ t v, s.complete w = .next t ∧ t.phase = .resp ⟨v, .ok⟩) := by
  unfold State.responseCode
  by_cases hres : reservedOp s.debugRead (Word.op w).toNat
  · rw [if_pos hres]
    exact .inl (reservedOpcodeIsIllegal s w hres)
  obtain ⟨i, hbuild, hop, hexec⟩ := State.complete_of_not_reserved hres
  rw [if_neg hres, hexec, ← hop]
  by_cases hneeds : needsInit i.opcode.toNat ∧ s.INITD = false
  · rw [if_pos hneeds]
    exact .inl (exec_of_needsInit hbuild hneeds.1 hneeds.2)
  rw [if_neg hneeds]
  by_cases hkey : i.opcode.toNat = 0x03 ∧ (s.KLEN = 0#9 ∨ s.KOVF = true)
  · rw [if_pos hkey]
    obtain rfl := opcode_toNat_eq_three_iff.1 hkey.1
    exact .inl (execInit_of_invalid (State.keyInvalid_eq_true_iff.2 hkey.2))
  · rw [if_neg hkey]
    rw [opcode_toNat_eq_three_iff, ← State.keyInvalid_eq_true_iff] at hkey
    exact .inr ⟨rfl, exec_ok hbuild (by simpa using hneeds) (by simpa using hkey)⟩

/-- Settles O32: the code is `State.responseCode` of the opcode. -/
theorem responseCodePriority : Obligations.ResponseCodePriority := by
  intro s w
  rcases s.complete_responseCode w with hw | ⟨hok, t, v, hw, hp⟩
  · exact ⟨_, _, hw, rfl, rfl⟩
  · exact ⟨t, _, hw, hp, hok.symm⟩

/-- Settles O34: a word that does not complete with OK raises its error. -/
theorem errorWritesNothing : Obligations.ErrorWritesNothing := by
  intro s t w r ht hr hcode
  rcases s.complete_responseCode w with hw | ⟨-, u, v, hw, hp⟩
  · obtain rfl := Host.Outcome.next.inj (hw.symm.trans ht)
    cases hr
    rfl
  · obtain rfl := Host.Outcome.next.inj (hw.symm.trans ht)
    obtain rfl := Phase.resp.inj (hp.symm.trans hr)
    exact absurd rfl hcode

end Sys2Proof.Machine
end

section
/-! PROOFS of the family 70_reset_and_hazards.md: contents the spec leaves unspecified are never observed, the
keystream read sees the swap, every command in flight completes, and what a reset edge does. -/

namespace Sys2Proof.Machine

open Sys2Proof

/-! ## Operations on the table read its contents only (R120, R105) -/

section
variable {S S' : Memory} (h : tableAt S = tableAt S')
include h

theorem swapTable_congr (a b : Byte) : tableAt (swapTable S a b) = tableAt (swapTable S' a b) := by
  funext n
  rw [tableAt_swapTable, tableAt_swapTable, h]

theorem ksaIndex_congr (ki kj b : Byte) : ksaIndex S ki kj b = ksaIndex S' ki kj b := by
  rw [ksaIndex, ksaIndex, h]

theorem prga_congr (I J : Byte) :
    (prga S I J).J = (prga S' I J).J ∧ tableAt (prga S I J).S = tableAt (prga S' I J).S ∧
      (prga S I J).ks = (prga S' I J).ks := by
  have hJ : (prga S I J).J = (prga S' I J).J := by rw [prga_J, prga_J, h]
  have hS : tableAt (prga S I J).S = tableAt (prga S' I J).S := by
    rw [prga_S, prga_S, h]
    exact swapTable_congr h _ _
  refine ⟨hJ, hS, ?_⟩
  rw [prga_ks, prga_ks, hS, hJ, h, prga_I, prga_I]

end

/-! ## Each piece of a step keeps two states the same but for unspecified contents (R195)

The relation is a simulation: what one state does the other does, and the two that result are related again. -/

section
variable {s t s' : State}

/-! ### What the relation determines -/

theorem State.SameButUnspecified.keyInvalid_eq (h : s.SameButUnspecified t) : s.keyInvalid = t.keyInvalid := by
  rw [State.keyInvalid, State.keyInvalid, h.KLEN, h.KOVF]

theorem State.SameButUnspecified.startsPass_eq (h : s.SameButUnspecified t) (w : Word) :
    s.startsPass w = t.startsPass w := by
  rw [State.startsPass, State.startsPass, h.debugRead, h.keyInvalid_eq]

theorem State.SameButUnspecified.statusReg_eq (h : s.SameButUnspecified t) : s.statusReg = t.statusReg := by
  simp only [State.statusReg, State.kfull, State.busy, h.KLEN, h.KOVF, h.phase, h.INITD]

theorem State.SameButUnspecified.klenLow_eq (h : s.SameButUnspecified t) : s.klenLow = t.klenLow := by
  rw [State.klenLow, State.klenLow, h.KLEN]

theorem State.SameButUnspecified.keySlot_eq (h : s.SameButUnspecified t) : s.keySlot = t.keySlot := by
  rw [State.keySlot, State.keySlot, h.KLEN]

theorem State.SameButUnspecified.handshakeBroken_eq (h : s.SameButUnspecified t) (e : ClockEdge) :
    s.handshakeBroken e = t.handshakeBroken e := by
  rw [State.handshakeBroken, State.handshakeBroken, h.held]

theorem State.SameButUnspecified.tableAt_eq (h : s.SameButUnspecified t) (hused : s.INITD = true ∨ s.busy = true) :
    tableAt s.S = tableAt t.S :=
  funext (h.table hused)

/-- R107 (b): the pass of a valid key gives one table. -/
theorem State.SameButUnspecified.ksaTable_eq (h : s.SameButUnspecified t) (hk : s.keyInvalid = false) :
    ksaTable s.K s.KLEN.toNat = ksaTable t.K t.KLEN.toNat := by
  rw [← h.KLEN]
  exact ksaTable_eq_of_eq_below (State.klen_pos hk) h.key

/-! ### The updates -/

theorem State.SameButUnspecified.withInputs (h : s.SameButUnspecified t) (x : List ClockEdge) :
    State.SameButUnspecified { s with inputs := x } { t with inputs := x } :=
  { h with inputs := rfl }

theorem State.SameButUnspecified.withHeld (h : s.SameButUnspecified t) (x : Option Word) :
    State.SameButUnspecified { s with held := x } { t with held := x } :=
  { h with held := rfl }

/-- Outside a pass only INITD asks for the table. -/
theorem State.SameButUnspecified.withPhase (h : s.SameButUnspecified t) {p : Phase} (hp : ∀ r, p ≠ .ksa r) :
    State.SameButUnspecified { s with phase := p } { t with phase := p } :=
  { h with
    phase := rfl
    table := by
      rintro (hinitd | hbusy)
      · exact h.table (.inl hinitd)
      · cases (State.busy_eq_false hp).symm.trans hbusy }

theorem State.SameButUnspecified.respond (h : s.SameButUnspecified t) {d d' : Byte} (hd : d = d') (c : RspCode) :
    (s.respond d c).SameButUnspecified (t.respond d' c) := by
  subst hd
  exact h.withPhase (by simp)

/-- Tables that read the same may be put in. -/
theorem State.SameButUnspecified.withTable (h : s.SameButUnspecified t) {S S' : Memory}
    (hS : tableAt S = tableAt S') : State.SameButUnspecified { s with S := S } { t with S := S' } :=
  { h with table := fun _ => congrFun hS }

/-- R191: after a reset edge no key byte and no table entry is specified. -/
theorem State.SameButUnspecified.resetEdge (h : s.SameButUnspecified t) :
    s.resetEdge.SameButUnspecified t.resetEdge :=
  { h with
    I := rfl, J := rfl, KLEN := rfl, KOVF := rfl, INITD := rfl, phase := rfl
    key := fun n hn => absurd hn (Nat.not_lt_zero _)
    table := by rintro (hinitd | hbusy) <;> contradiction }

theorem State.SameButUnspecified.beginPass (h : s.SameButUnspecified t) :
    s.beginPass.SameButUnspecified t.beginPass :=
  { h with INITD := rfl, phase := rfl, table := fun _ _ => rfl }

theorem State.SameButUnspecified.endPass (h : s.SameButUnspecified t) {S S' : Memory}
    (hS : tableAt S = tableAt S') :
    (State.endPass { s with S := S }).SameButUnspecified (State.endPass { t with S := S' }) :=
  { h with I := rfl, J := rfl, INITD := rfl, phase := rfl, table := fun _ => congrFun hS }

/-- KPUSH below 256 (R101): the byte stored is specified from then on, and it is the same. -/
theorem State.SameButUnspecified.pushKey (h : s.SameButUnspecified t) (b : Byte) (hlt : s.KLEN < 256#9) :
    State.SameButUnspecified { s with K := setAt s.K s.keySlot b, KLEN := s.KLEN + 1#9 }
      { t with K := setAt t.K t.keySlot b, KLEN := t.KLEN + 1#9 } :=
  { h with
    KLEN := congrArg (· + 1#9) h.KLEN
    key := fun n hn => by
      have hslot := State.keySlot_toNat hlt
      change n.toNat < (s.KLEN + 1#9).toNat at hn
      rw [klen_succ_toNat hlt] at hn
      rw [← h.keySlot_eq, keyAt_setAt, keyAt_setAt]
      by_cases hnew : n = s.keySlot
      · rw [if_pos hnew, if_pos hnew]
      · have hne := toNat_ne_of_ne hnew
        rw [if_neg hnew, if_neg hnew]
        exact h.key n (by omega) }

/-! ### The commands -/

/-- The debug read-back commands read the engine only where it is initialised (R142 to R144). -/
theorem State.SameButUnspecified.debugRespond (h : s.SameButUnspecified t) {v v' : Byte}
    (hv : s.INITD = true → v = v') : (s.debugRespond v).SameButUnspecified (t.debugRespond v') := by
  cases hbuild : s.debugRead with
  | false =>
    rw [State.debugRespond_of_no_debugRead v hbuild, State.debugRespond_of_no_debugRead v' (h.debugRead ▸ hbuild)]
    exact h.respond rfl _
  | true =>
    have hbuild' := h.debugRead ▸ hbuild
    cases hinitd : s.INITD with
    | false =>
      rw [State.debugRespond_of_not_initd v hbuild hinitd,
        State.debugRespond_of_not_initd v' hbuild' (h.INITD ▸ hinitd)]
      exact h.respond rfl _
    | true =>
      rw [State.debugRespond_of_initd v hbuild hinitd, State.debugRespond_of_initd v' hbuild' (h.INITD ▸ hinitd)]
      exact h.respond (hv hinitd) _

theorem State.SameButUnspecified.execKpush (h : s.SameButUnspecified t) (b : Byte)
    (he : exec (.kpush b) s = .next s') : ∃ t', exec (.kpush b) t = .next t' ∧ s'.SameButUnspecified t' := by
  by_cases hlt : s.KLEN < 256#9
  · obtain rfl := Host.Outcome.next.inj ((exec_kpush_of_lt b hlt).symm.trans he)
    exact ⟨_, exec_kpush_of_lt b (h.KLEN ▸ hlt), (h.pushKey b hlt).respond rfl _⟩
  · obtain rfl := Host.Outcome.next.inj ((exec_kpush_of_full b hlt).symm.trans he)
    have hovf : State.SameButUnspecified { s with KOVF := true } { t with KOVF := true } := { h with KOVF := rfl }
    exact ⟨_, exec_kpush_of_full b (h.KLEN ▸ hlt), hovf.respond rfl _⟩

theorem State.SameButUnspecified.execInit (h : s.SameButUnspecified t) (he : exec .init s = .next s') :
    ∃ t', exec .init t = .next t' ∧ s'.SameButUnspecified t' := by
  cases hk : s.keyInvalid with
  | true =>
    obtain rfl := Host.Outcome.next.inj ((execInit_of_invalid hk).symm.trans he)
    exact ⟨_, execInit_of_invalid (h.keyInvalid_eq ▸ hk), h.respond rfl _⟩
  | false =>
    obtain rfl := (exec_init_eq_next_iff hk).1 he
    exact ⟨_, execInit_of_valid (h.keyInvalid_eq ▸ hk), h.endPass (congrArg tableAt (h.ksaTable_eq hk))⟩

theorem State.SameButUnspecified.execXform (h : s.SameButUnspecified t) (d : Byte)
    (he : exec (.xform d) s = .next s') : ∃ t', exec (.xform d) t = .next t' ∧ s'.SameButUnspecified t' := by
  cases hinitd : s.INITD with
  | false =>
    obtain rfl := Host.Outcome.next.inj ((execXform_of_not_initd d hinitd).symm.trans he)
    exact ⟨_, execXform_of_not_initd d (h.INITD ▸ hinitd), h.respond rfl _⟩
  | true =>
    obtain rfl := Host.Outcome.next.inj ((execXform_of_initd d hinitd).symm.trans he)
    obtain ⟨hJ, hS, hks⟩ := prga_congr (h.tableAt_eq (.inl hinitd)) s.I s.J
    refine ⟨_, execXform_of_initd d (h.INITD ▸ hinitd), ?_⟩
    rw [← h.I, ← h.J]
    have hstep : State.SameButUnspecified
        { s with S := (prga s.S s.I s.J).S, I := (prga s.S s.I s.J).I, J := (prga s.S s.I s.J).J }
        { t with S := (prga t.S s.I s.J).S, I := (prga t.S s.I s.J).I, J := (prga t.S s.I s.J).J } :=
      { h.withTable hS with I := rfl, J := hJ }
    exact hstep.respond (congrArg (d ^^^ ·) hks) _

theorem State.SameButUnspecified.exec {i : Instr} (h : s.SameButUnspecified t) (he : exec i s = .next s') :
    ∃ t', exec i t = .next t' ∧ s'.SameButUnspecified t' := by
  cases i with
  | kpush b => exact h.execKpush b he
  | init => exact h.execInit he
  | xform d => exact h.execXform d he
  | nop => cases he; exact ⟨_, rfl, h.respond rfl _⟩
  | kclr =>
    cases he
    have hempty : State.SameButUnspecified { s with KLEN := 0#9, KOVF := false }
        { t with KLEN := 0#9, KOVF := false } :=
      { h with KLEN := rfl, KOVF := rfl, key := fun n hn => absurd hn (Nat.not_lt_zero _) }
    exact ⟨_, rfl, hempty.respond rfl _⟩
  | rdstat => cases he; exact ⟨_, rfl, h.respond h.statusReg_eq _⟩
  | rdklen => cases he; exact ⟨_, rfl, h.respond h.klenLow_eq _⟩
  | rdi => cases he; exact ⟨_, rfl, h.debugRespond fun _ => h.I⟩
  | rdj => cases he; exact ⟨_, rfl, h.debugRespond fun _ => h.J⟩
  | rds n => cases he; exact ⟨_, rfl, h.debugRespond fun hinitd => h.table (.inl hinitd) n⟩

theorem State.SameButUnspecified.complete {w : Word} (h : s.SameButUnspecified t) (hc : s.complete w = .next s') :
    ∃ t', t.complete w = .next t' ∧ s'.SameButUnspecified t' := by
  cases hd : decode s.debugRead w with
  | command i =>
    rw [State.complete_of_command hd] at hc
    rw [State.complete_of_command (h.debugRead ▸ hd)]
    exact h.exec hc
  | reserved op =>
    obtain rfl := Host.Outcome.next.inj ((State.complete_of_reserved hd).symm.trans hc)
    exact ⟨_, State.complete_of_reserved (h.debugRead ▸ hd), h.respond rfl _⟩

/-! ### The running pass (R105, R106) -/

/-- R106: the key index of a running pass is below the key's length, so the byte it reads is specified. -/
theorem PassInv.kidx_lt {r : KsaRegs} (h : PassInv s r) : r.kidx.toNat < s.KLEN.toNat := by
  rw [h.keyIndex]
  exact Nat.mod_lt _ (State.klen_pos h.keyValid)

theorem State.SameButUnspecified.passIteration {r : KsaRegs} (h : s.SameButUnspecified t) (hp : s.phase = .ksa r)
    (hinv : PassInv s r) : (s.passIteration r).SameButUnspecified (t.passIteration r) := by
  have hS := h.tableAt_eq (.inr (State.busy_iff.2 ⟨r, hp⟩))
  rw [State.passIteration_eq, State.passIteration_eq, ← h.key r.kidx hinv.kidx_lt, ← ksaIndex_congr hS]
  have hswap := swapTable_congr hS r.ki (ksaIndex s.S r.ki r.kj (keyAt s.K r.kidx))
  dsimp only
  split
  · exact h.endPass hswap
  · exact { h.withTable hswap with phase := by simp only [h.KLEN], table := fun _ => congrFun hswap }

theorem State.SameButUnspecified.passIterations (n : Nat) (h : s.SameButUnspecified t) (hinv : s.Inv) :
    (s.passIterations n).SameButUnspecified (t.passIterations n) := by
  induction n generalizing s t with
  | zero => exact h
  | succ n ih =>
    cases hp : s.phase with
    | ksa r =>
      rw [State.passIterations_succ hp, State.passIterations_succ (h.phase ▸ hp)]
      exact ih (h.passIteration hp (hinv.pass r hp)) (hinv.passIteration hp)
    | idle | exec w | resp r => simpa only [State.passIterations, ← h.phase, hp] using h

/-! ### An edge (R72 to R76) -/

theorem State.SameButUnspecified.advance_exec {w : Word} {p : Pace} (h : s.SameButUnspecified t)
    (hp : s.phase = .exec w) (ha : s.advance p = .next s') :
    ∃ t', t.advance p = .next t' ∧ s'.SameButUnspecified t' := by
  have hp' := h.phase ▸ hp
  cases p with
  | wait =>
    obtain rfl := Host.Outcome.next.inj ((State.advance_wait s).symm.trans ha)
    exact ⟨t, State.advance_wait t, h⟩
  | finish =>
    rw [State.advance_exec_finish hp] at ha
    rw [State.advance_exec_finish hp']
    exact h.complete ha
  | work =>
    rw [State.advance_exec_work hp] at ha
    rw [State.advance_exec_work hp', ← h.startsPass_eq]
    split at ha
    · next hs => cases ha; exact ⟨_, if_pos hs, h.beginPass⟩
    · next hs => rw [if_neg hs]; exact h.complete ha

theorem State.SameButUnspecified.advance_ksa {r : KsaRegs} {p : Pace} (h : s.SameButUnspecified t) (hinv : s.Inv)
    (hp : s.phase = .ksa r) (ha : s.advance p = .next s') :
    ∃ t', t.advance p = .next t' ∧ s'.SameButUnspecified t' := by
  have hp' := h.phase ▸ hp
  cases p with
  | wait =>
    obtain rfl := Host.Outcome.next.inj ((State.advance_wait s).symm.trans ha)
    exact ⟨t, State.advance_wait t, h⟩
  | work =>
    obtain rfl := Host.Outcome.next.inj ((State.advance_ksa_work hp).symm.trans ha)
    exact ⟨_, State.advance_ksa_work hp', h.passIteration hp (hinv.pass r hp)⟩
  | finish =>
    obtain rfl := Host.Outcome.next.inj ((State.advance_ksa_finish hp).symm.trans ha)
    exact ⟨_, State.advance_ksa_finish hp', h.passIterations _ hinv⟩

theorem State.SameButUnspecified.advance_inFlight {p : Pace} (h : s.SameButUnspecified t) (hinv : s.Inv)
    (hf : s.inFlight) (ha : s.advance p = .next s') :
    ∃ t', t.advance p = .next t' ∧ s'.SameButUnspecified t' := by
  rcases hf with ⟨w, hp⟩ | ⟨r, hp⟩
  · exact h.advance_exec hp ha
  · exact h.advance_ksa hinv hp ha

theorem State.SameButUnspecified.accept (h : s.SameButUnspecified t) (w : Word) :
    (s.accept w).SameButUnspecified (t.accept w) :=
  (h.withPhase (p := .exec w) (by simp)).withHeld none

theorem State.SameButUnspecified.inFlight (h : s.SameButUnspecified t) (hf : s.inFlight) : t.inFlight := by
  rw [State.inFlight, ← h.phase]
  exact hf

theorem State.SameButUnspecified.clockEdge {e : ClockEdge} (h : s.SameButUnspecified t) (hinv : s.Inv)
    (he : s.clockEdge e = .next s') : ∃ t', t.clockEdge e = .next t' ∧ s'.SameButUnspecified t' := by
  have hbroken := h.handshakeBroken_eq e
  rcases State.clockEdge_cases he with
    ⟨-, h1⟩ | ⟨hr, hb, h1⟩ | ⟨hr, hb, ⟨hp, hv, h1⟩ | ⟨hp, hv, ha⟩ | ⟨hf, ha⟩ | ⟨r, hp, h1⟩⟩
  · cases h1
  · cases h1
    exact ⟨_, State.clockEdge_reset hr (hbroken ▸ hb), h.resetEdge.withHeld _⟩
  · cases h1
    exact ⟨t, by rw [State.clockEdge_idle hr (hbroken ▸ hb) (h.phase ▸ hp), hv]; rfl, h⟩
  · rw [State.clockEdge_idle hr (hbroken ▸ hb) (h.phase ▸ hp), if_pos hv]
    exact (h.accept e.cmdWord).advance_exec rfl ha
  · rw [State.clockEdge_inFlight hr (hbroken ▸ hb) (h.inFlight hf)]
    exact (h.withHeld e.presented).advance_inFlight (hinv.withHeld _) hf ha
  · cases h1
    refine ⟨_, State.clockEdge_resp hr (hbroken ▸ hb) (h.phase ▸ hp), ?_⟩
    exact (h.withPhase (p := if e.rspReady then .idle else .resp r) (by intro q; split <;> simp)).withHeld _

end

/-- Settles O53: with no edge the two states stay, and an edge keeps them the same but for unspecified contents. -/
theorem unspecifiedContentsUnobserved : Obligations.UnspecifiedContentsUnobserved := by
  intro s t s' hinv h hstep
  cases hin : s.inputs with
  | nil =>
    obtain rfl := Host.Outcome.next.inj ((step_of_no_inputs hin).symm.trans hstep)
    exact ⟨t, step_of_no_inputs (h.inputs ▸ hin), h⟩
  | cons e rest =>
    rw [step_of_inputs hin] at hstep
    rw [step_of_inputs (h.inputs ▸ hin)]
    exact (h.withInputs rest).clockEdge (hinv.withInputs rest) hstep

/-! ## The keystream read after the swap (R196) -/

/-- Settles O37: the read is of the swapped table, case by case of its index. -/
theorem keystreamReadAfterSwap : Obligations.KeystreamReadAfterSwap := by
  rintro S I J I' J' t rfl rfl ht
  have hks : (prga S I J).ks = tableAt (prga S I J).S t := by
    rw [prga_ks, prga_I, prga_J, BitVec.add_comm, ht]
  refine ⟨hks, fun hI => ?_, fun hJ => ?_, fun hI hJ => ?_⟩
  · rw [hks, hI, prga_S]
    exact tableAt_swapTable_left S _ _
  · rw [hks, hJ, prga_S]
    exact tableAt_swapTable_right S _ _
  · rw [hks, prga_S]
    exact tableAt_swapTable_of_ne S hI hJ

/-! ## Every command in flight completes (R201) -/

section
variable {s : State}

/-- An iteration ends the pass or counts `ki` up. -/
theorem State.passIteration_phase (s : State) (r : KsaRegs) :
    (s.passIteration r).phase = .resp ⟨0x00#8, .ok⟩ ∨
    ∃ r', (s.passIteration r).phase = .ksa r' ∧ r'.ki.toNat = r.ki.toNat + 1 := by
  rw [State.passIteration_eq]
  dsimp only
  split
  · exact .inl rfl
  · next hki =>
    have hne : r.ki.toNat ≠ 255 := fun hlast => hki (BitVec.eq_of_toNat_eq hlast)
    have hlt := r.ki.isLt
    refine .inr ⟨_, rfl, ?_⟩
    rw [BitVec.toNat_add, BitVec.toNat_ofNat]
    omega

/-- Enough iterations bring a pass to its response, whatever the table and the key. -/
theorem State.passIterations_phase {n : Nat} {r : KsaRegs} (hp : s.phase = .ksa r)
    (hn : 256 ≤ n + r.ki.toNat) : (s.passIterations n).phase = .resp ⟨0x00#8, .ok⟩ := by
  induction n generalizing s r with
  | zero => have := r.ki.isLt; omega
  | succ n ih =>
    rw [State.passIterations_succ hp]
    rcases s.passIteration_phase r with hresp | ⟨r', hp', hki⟩
    · rwa [State.passIterations_of_resp n hresp]
    · exact ih hp' (by omega)

/-- R199, R201: doing all that is left of the command in flight makes its response valid. -/
theorem State.advance_finish_of_inFlight (hf : s.inFlight) :
    ∃ t r, s.advance .finish = .next t ∧ t.phase = .resp r := by
  rcases hf with ⟨w, hp⟩ | ⟨r, hp⟩
  · rw [State.advance_exec_finish hp]
    exact State.complete_next w s
  · exact ⟨_, _, State.advance_ksa_finish hp, State.passIterations_phase hp (by rw [passLength_eq]; omega)⟩

end

/-- Settles O52: the first edge brings the response, the second takes it. -/
theorem inFlightCommandCompletes : Obligations.InFlightCommandCompletes := by
  intro s e f rest hf hin hrst hpace hheld hfrst hfready hfheld
  have hb := State.handshakeBroken_eq_false (s := { s with inputs := f :: rest }) hheld
  obtain ⟨t, r, ht, hp⟩ :=
    State.advance_finish_of_inFlight (s := { s with inputs := f :: rest, held := e.presented }) hf
  have hstep : step s = .next t := by
    rw [step_of_inputs hin, State.clockEdge_inFlight hrst hb hf, hpace, ht]
  obtain ⟨-, htheld, htin⟩ := State.advance_frame ht
  have hb' : State.handshakeBroken { t with inputs := rest } f = false :=
    State.handshakeBroken_eq_false (htheld ▸ hfheld)
  refine ⟨t, _, r, hstep, hp, (step_of_inputs htin).trans (State.clockEdge_resp hfrst hb' hp), ?_⟩
  exact if_pos hfready

/-! ## Reset (R190 to R192) -/

/-- Settles O14: a reset edge of a host that keeps the handshake is `State.resetEdge`. -/
theorem resetEdgeEffect : Obligations.ResetEdgeEffect := by
  intro s e rest hin hrst hheld
  rw [step_of_inputs hin]
  exact State.clockEdge_reset hrst (State.handshakeBroken_eq_false hheld)

/-- What a reset edge leaves, where it is not refused. -/
theorem step_reset_eq {s t : State} {e : ClockEdge} {rest : List ClockEdge} (hin : s.inputs = e :: rest)
    (hrst : e.rst = true) (h : step s = .next t) :
    t = { s.resetEdge with inputs := rest, held := e.presented } := by
  rw [step_of_inputs hin] at h
  rcases State.clockEdge_cases h with ⟨-, h1⟩ | ⟨-, -, h1⟩ | ⟨hr, -⟩
  · cases h1
  · cases h1; rfl
  · cases hrst.symm.trans hr

/-- R162: a debug read-back command on an engine that is not initialised, in a build that has it. -/
theorem exec_of_isDebugRead_of_not_initd {s : State} {i : Instr} (hi : i.isDebugRead = true)
    (hbuild : s.debugRead = true) (hinitd : s.INITD = false) : exec i s = .next (s.raiseError .notInit) :=
  exec_of_needsInit (by simp [Instr.wellFormed, hbuild]) (needsInit_opcode_iff.2 (.inr hi)) hinitd

/-- R192: STATUS reads 0x00 after a reset edge. -/
theorem State.statusReg_resetEdge (s : State) : s.resetEdge.statusReg = 0x00#8 := by
  simp [State.statusReg, State.kfull, State.busy]

/-- Settles O15: the phase is IDLE, every field of STATUS is 0, and so is INITD, which the four commands check. -/
theorem uninitialisedAfterReset : Obligations.UninitialisedAfterReset := by
  intro s t e rest hin hrst h
  obtain rfl := step_reset_eq hin hrst h
  refine ⟨State.cmdReady_iff.2 ⟨rfl, rfl⟩, (State.statusPort_eq_statusReg (.inl rfl)).trans s.statusReg_resetEdge,
    fun d => execXform_of_not_initd d rfl, fun hbuild n => ?_⟩
  exact ⟨exec_of_isDebugRead_of_not_initd rfl hbuild rfl, exec_of_isDebugRead_of_not_initd rfl hbuild rfl,
    exec_of_isDebugRead_of_not_initd rfl hbuild rfl⟩

end Sys2Proof.Machine
end
